-- ==== Sys2Proof/Word.lean ====
section
/-! DEFINITION. The three bit widths of the VARINT unit: a byte of either space (00_scope.md R11), a 64-bit value
(00_scope.md R5, VALUE_W) and the 76-bit command word (30_encoding.md R70). -/

namespace Sys2Proof

/-- A byte of the input or the output space, bit 7 the most significant (R11). -/
abbrev Byte := BitVec 8

/-- An unsigned 64-bit value: the field V of a command and the value of a response (R5, R27, R28). -/
abbrev Value := BitVec 64

/-- One command word `CW[75:0]` (R70). -/
abbrev CmdWord := BitVec 76

end Sys2Proof
end

