-- ==== Sys2Proof/Syntax.lean ====
section
/-! DEFINITION. The syntax of commands: one constructor per row of spec/opcode_table.json, with the operands that row
reads (30_encoding.md R75). A field an operation does not read is no operand (30_encoding.md R76). -/

namespace Sys2Proof

/-- The four result kinds the selector W names: 8, 16, 32 and 64 bits (30_encoding.md R73). -/
inductive Width where
  | u8
  | u16
  | u32
  | u64
deriving DecidableEq, Repr

/-- The two decode paths the selector F names (30_encoding.md R74). -/
inductive Path where
  | safe
  | fast
deriving DecidableEq, Repr

/-- The 17 legal operations (30_encoding.md R75). -/
inductive Instr where
  /-- REQLEN, OP 0x10 (41_length.md R121). -/
  | reqlen (v : Value)
  /-- PACK, OP 0x20 (42_encoder.md R131). -/
  | pack (n : BitVec 4) (v : Value)
  /-- ENCODE, OP 0x30 (42_encoder.md R137). -/
  | encode (v : Value)
  /-- FITCHK.U8, OP 0x40 (44_narrowing.md R185). -/
  | fitchkU8 (v : Value)
  /-- FITCHK.U16, OP 0x41 (44_narrowing.md R186). -/
  | fitchkU16 (v : Value)
  /-- FITCHK.U32, OP 0x42 (44_narrowing.md R187). -/
  | fitchkU32 (v : Value)
  /-- FITCHK.U64, OP 0x43 (44_narrowing.md R188). -/
  | fitchkU64 (v : Value)
  /-- DECODE, OP 0x50 (43_decoder.md R152). -/
  | decode
  /-- DECODE.F, OP 0x58 (43_decoder.md R164). -/
  | decodeF
  /-- DECODE_AS.U8, OP 0x60 (44_narrowing.md R189). -/
  | decodeAsU8
  /-- DECODE_AS.U16, OP 0x61 (44_narrowing.md R190). -/
  | decodeAsU16
  /-- DECODE_AS.U32, OP 0x62 (44_narrowing.md R191). -/
  | decodeAsU32
  /-- DECODE_AS.U64, OP 0x63 (44_narrowing.md R192). -/
  | decodeAsU64
  /-- DECODE_AS.U8.F, OP 0x68 (44_narrowing.md R193). -/
  | decodeAsU8F
  /-- DECODE_AS.U16.F, OP 0x69 (44_narrowing.md R194). -/
  | decodeAsU16F
  /-- DECODE_AS.U32.F, OP 0x6A (44_narrowing.md R195). -/
  | decodeAsU32F
  /-- DECODE_AS.U64.F, OP 0x6B (44_narrowing.md R196). -/
  | decodeAsU64F
deriving DecidableEq, Repr

end Sys2Proof
end

