-- ==== Sys2Proof/WellFormed.lean ====
section
/-! DEFINITION. Which operation codes are well formed, said through the subfields of OP (30_encoding.md R72), apart
from the list of 17 values that Decode.lean looks OP up in. The operands of `Instr` need no check: N is any 4-bit and V
any 64-bit integer, and no combination of a legal OP with an N and a V is illegal as an encoding (R77, R81). -/

namespace Sys2Proof

/-- `CLS = OP[7:4]`, the operation class (R72). -/
def opClass (op : BitVec 8) : BitVec 4 := op.extractLsb' 4 4

/-- `F = OP[3]`, the path selector (R72). -/
def opFast (op : BitVec 8) : Bool := op.getLsbD 3

/-- `OP[2]`, reserved (R72). -/
def opReserved (op : BitVec 8) : Bool := op.getLsbD 2

/-- `W = OP[1:0]`, the width selector (R72). -/
def opWidth (op : BitVec 8) : BitVec 2 := op.extractLsb' 0 2

/-- The check of F: it may be 1 only in classes 5 and 6 (R72). -/
def fastOk (op : BitVec 8) : Bool := !opFast op || opClass op == 5 || opClass op == 6

/-- The check of W: it may be non-zero only in classes 4 and 6 (R72). -/
def widthOk (op : BitVec 8) : Bool := opWidth op == 0 || opClass op == 4 || opClass op == 6

/-- The check of the class: classes 1 to 6 hold the opcodes (R75). -/
def classOk (op : BitVec 8) : Bool := 1 ≤ (opClass op).toNat && (opClass op).toNat ≤ 6

/-- An OP value is well formed when its class, its reserved bit, its F and its W are (R72, R75). -/
def opWellFormed (op : BitVec 8) : Bool := classOk op && !opReserved op && fastOk op && widthOk op

end Sys2Proof
end

