-- ==== Sys2Proof/Decode.lean ====
section
/-! DEFINITION. Decoding a command word, total on every 76-bit word and rejecting by name (30_encoding.md R70, R75, R78,
R81); the encoder, written from the same table (30_encoding.md R75, R82); each row's word in Sys2Proof/Tests/Slice0.lean. -/

namespace Sys2Proof

/-- `OP = CW[75:68]` (R70). -/
def opField (cw : CmdWord) : BitVec 8 := cw.extractLsb' 68 8

/-- `N = CW[67:64]` (R70). -/
def nField (cw : CmdWord) : BitVec 4 := cw.extractLsb' 64 4

/-- `V = CW[63:0]` (R70). -/
def vField (cw : CmdWord) : Value := cw.extractLsb' 0 64

/-- The word `{OP, N, V}` (R70). -/
def assemble (op : BitVec 8) (n : BitVec 4) (v : Value) : CmdWord := op ++ n ++ v

/-- Why a word is no command. -/
inductive DecodeError where
  /-- OP is none of the 17 legal values (R78); the machine answers the status ILLEGAL. -/
  | illegalOp (op : BitVec 8)
deriving DecidableEq, Repr

/-- OP is looked up among the 17 values; the fields an operation does not read are ignored (R75, R76, R78, R81). -/
def decodeWord (cw : CmdWord) : Except DecodeError Instr :=
  match opField cw with
  | 0x10#8 => .ok (.reqlen (vField cw))
  | 0x20#8 => .ok (.pack (nField cw) (vField cw))
  | 0x30#8 => .ok (.encode (vField cw))
  | 0x40#8 => .ok (.fitchkU8 (vField cw))
  | 0x41#8 => .ok (.fitchkU16 (vField cw))
  | 0x42#8 => .ok (.fitchkU32 (vField cw))
  | 0x43#8 => .ok (.fitchkU64 (vField cw))
  | 0x50#8 => .ok .decode
  | 0x58#8 => .ok .decodeF
  | 0x60#8 => .ok .decodeAsU8
  | 0x61#8 => .ok .decodeAsU16
  | 0x62#8 => .ok .decodeAsU32
  | 0x63#8 => .ok .decodeAsU64
  | 0x68#8 => .ok .decodeAsU8F
  | 0x69#8 => .ok .decodeAsU16F
  | 0x6A#8 => .ok .decodeAsU32F
  | 0x6B#8 => .ok .decodeAsU64F
  | op => .error (.illegalOp op)

/-- The word of an instruction, with 0 in every field the operation does not read (R75, R82). -/
def encode (i : Instr) : CmdWord :=
  match i with
  | .reqlen v => assemble 0x10#8 0#4 v
  | .pack n v => assemble 0x20#8 n v
  | .encode v => assemble 0x30#8 0#4 v
  | .fitchkU8 v => assemble 0x40#8 0#4 v
  | .fitchkU16 v => assemble 0x41#8 0#4 v
  | .fitchkU32 v => assemble 0x42#8 0#4 v
  | .fitchkU64 v => assemble 0x43#8 0#4 v
  | .decode => assemble 0x50#8 0#4 0#64
  | .decodeF => assemble 0x58#8 0#4 0#64
  | .decodeAsU8 => assemble 0x60#8 0#4 0#64
  | .decodeAsU16 => assemble 0x61#8 0#4 0#64
  | .decodeAsU32 => assemble 0x62#8 0#4 0#64
  | .decodeAsU64 => assemble 0x63#8 0#4 0#64
  | .decodeAsU8F => assemble 0x68#8 0#4 0#64
  | .decodeAsU16F => assemble 0x69#8 0#4 0#64
  | .decodeAsU32F => assemble 0x6A#8 0#4 0#64
  | .decodeAsU64F => assemble 0x6B#8 0#4 0#64

/-- The 76-bit word whose bits, numbered as spec/opcode_table.json numbers them, are those of `w` below bit `nbits`. -/
def tableWord (nbits w : Nat) : CmdWord := BitVec.ofNat 76 (w % 2 ^ nbits)

/-- The instruction the decoder reads from an instruction whose bits are `w` (bit 0 the least significant bit of the
word, bits at or above `nbits` zero); a number of more than 76 bits is no command word (R70, R80). -/
def decodeTableWord (nbits w : Nat) : Option Instr :=
  if w % 2 ^ nbits < 2 ^ 76 then
    match decodeWord (tableWord nbits w) with
    | .ok i => some i
    | .error _ => none
  else none

end Sys2Proof
end

