-- ==== Sys2Proof/Machine/State.lean ====
section
/-! DEFINITION. The state of the VARINT unit and of the host bound to it, as plain data (10_state.md R23 to R32,
70_reset_and_hazards.md R245), the reasons a step can stop, and the state right after reset. -/

namespace Sys2Proof.Machine

/-- The five status values of a response (60_exceptions.md R210). -/
inductive Status where
  /-- The command did what its rule says. -/
  | ok
  /-- The Reader had fewer bytes than the head byte asks for (R211). -/
  | truncated
  /-- The value does not fit the target width (R212). -/
  | range
  /-- PACK's length is not 1 to 9, or its value does not fit (R213). -/
  | badlen
  /-- The word spells no operation (R214). -/
  | illegal
deriving DecidableEq, Repr

/-- The response of a command, `rsp = (status, len, value)` (10_state.md R28). -/
structure Response where
  status : Status
  len : BitVec 4
  value : Value
deriving DecidableEq, Repr

/-- What the outside does next: the host between commands (10_state.md R26, 30_encoding.md R84), reset (10_state.md
R32), the Writer (20_memory.md R51). -/
inductive Event where
  /-- The host presents a command word (`cmd_valid = 1`, R29). -/
  | command (cw : CmdWord)
  /-- `.in b0 b1 ...` (R84). -/
  | bindIn (bytes : List Byte)
  /-- `.rpos k` (R84). -/
  | setRpos (k : Nat)
  /-- `.out b0 b1 ...` (R84). -/
  | bindOut (bytes : List Byte)
  /-- `.in_from_out` (R84). -/
  | inFromOut
  /-- `rst_n` is 0 at a rising edge of `clk` (R32). -/
  | reset
  /-- A command that is accepted and then abandoned: reset is asserted before its response (R32, R241). -/
  | commandCut (cw : CmdWord)
  /-- The Writer drives `wr_ready` to this value from now on (R29, R51). -/
  | writerReady (ready : Bool)
deriving DecidableEq, Repr

/-- The output ports of the unit (10_state.md R29). -/
structure Ports where
  cmdReady : Bool
  rdConsume : BitVec 4
  wrValid : Bool
  wrCount : BitVec 4
  wrBytes : BitVec 72
  rspValid : Bool
  rspStatus : BitVec 3
  rspLen : BitVec 4
  rspValue : Value
deriving DecidableEq, Repr

/-- The output ports of the idle unit: `cmd_ready = 1` and everything else 0 (10_state.md R32). -/
def Ports.idle : Ports where
  cmdReady := true
  rdConsume := 0
  wrValid := false
  wrCount := 0
  wrBytes := 0
  rspValid := false
  rspStatus := 0
  rspLen := 0
  rspValue := 0

/-- What stops the machine: a primitive of 00_scope.md R13 used outside the domain the spec defines it on. No command
ever does that (20_memory.md R46, R47), so each is safe: it stands where the spec gives no result. -/
inductive Fault where
  /-- `MemRead(a, n)` with `a + n > IN_LEN` (20_memory.md R46). Raised by the window read of the fast path. Safe. -/
  | readOutsideInput
  /-- `Consume(k)` with `k > 9` or `k > remaining` (20_memory.md R47). Raised by the decode commands. Safe. -/
  | consumePastEnd
  /-- `Append(n, B)` with n outside 1 to 9 (20_memory.md R50). Raised by PACK and ENCODE. Safe. -/
  | appendSize
deriving DecidableEq, Repr

/-- What the machine gives no meaning. -/
inductive Refusal where
  /-- An instruction that has no meaning in the model yet, by its mnemonic. Raised by exec's arms only. Safe. -/
  | notModelled (mnemonic : String)
  /-- A decode command with RPOS outside 0..IN_LEN (60_exceptions.md R218 (c), 93_implementation_defined.md U9).
  Raised by the ten decode commands; no step leads there. Safe. -/
  | cursorOutsideInput
  /-- The host sets RPOS outside 0..IN_LEN (10_state.md R26, R33, 93_implementation_defined.md U9). Raised by the
  directive `.rpos`. Safe. -/
  | rposOutsideInput
deriving DecidableEq, Repr

/-- The whole machine. -/
structure State where
  /-- IN, the byte sequence of the Reader (10_state.md R23). -/
  inp : List Byte
  /-- RPOS, the Reader's cursor (10_state.md R24). -/
  rpos : Nat
  /-- OUT, the byte sequence of the Writer (10_state.md R25). -/
  out : List Byte
  /-- The command in flight, if any (10_state.md R31, R32, 70_reset_and_hazards.md R246). -/
  inFlight : Option CmdWord
  /-- The unit's output ports (10_state.md R29). -/
  ports : Ports
  /-- `wr_ready`, driven by the Writer (10_state.md R29, 20_memory.md R51). -/
  wrReady : Bool
  /-- What the outside does next, first to last: the program of 70_reset_and_hazards.md R245. -/
  schedule : List Event
  /-- The responses delivered so far, oldest first: the result of a run (70_reset_and_hazards.md R245). -/
  responses : List Response
deriving DecidableEq, Repr

/-- The machine right after reset: idle, nothing in flight, no response pending (10_state.md R32). The spec leaves IN,
RPOS, OUT and what the host does to the host; DESIGN CHOICE: IN and OUT empty, RPOS 0 (log entry 1), `wr_ready` 1
(log entry 2), an empty schedule and no response recorded (log entry 3). -/
def State.reset : State where
  inp := []
  rpos := 0
  out := []
  inFlight := none
  ports := Ports.idle
  wrReady := true
  schedule := []
  responses := []

end Sys2Proof.Machine
end

