-- ==== Sys2Proof/Machine/Flags.lean ====
section
/-! DEFINITION. The unit has no flags (10_state.md R22); the outcome of a command is the status code of its response.
This file gives the codes (60_exceptions.md R210). -/

namespace Sys2Proof.Machine

/-- The 3-bit code of a status; 5, 6 and 7 are never produced (R210, 10_state.md R28). -/
def statusCode (st : Status) : BitVec 3 :=
  match st with
  | .ok => 0
  | .truncated => 1
  | .range => 2
  | .badlen => 3
  | .illegal => 4

end Sys2Proof.Machine
end

