-- ==== Sys2Proof/Config.lean ====
section
/-! DEFINITION. The constants the spec fixes (00_scope.md R5) and the parameters it leaves open (00_scope.md R7,
93_implementation_defined.md U3, U13), the latter opaque: nothing in Lean can evaluate them. -/

namespace Sys2Proof

/-- MAX_LEN and ESCAPE_LEN: the longest form has 9 bytes, and it is the escape form (R5). -/
abbrev Config.escapeLen : Nat := 9

/-- PAYLOAD_BITS_PER_BYTE: a short form of length N carries exactly `7*N` payload bits (R5). -/
abbrev Config.payloadBitsPerByte : Nat := 7

/-- ESCAPE_MARKER: the head byte of the escape form (R5). -/
abbrev Config.escapeMarker : Byte := 0xFF#8

/-- WINDOW: the fast path reads a window of 9 bytes (R5). -/
abbrev Config.window : Nat := 9

/-- AW less one, so that AW is positive: OPEN in the spec (R7, D14, U13); no rule depends on its value (log entry 7). -/
opaque Config.addrWidthLessOne : Nat

/-- AW, the width in bits of `rd_remaining`: a positive integer, otherwise open (R7; log entry 7). -/
def Config.addrWidth : Nat := Config.addrWidthLessOne + 1

/-- OVERREAD_SAFE: whether the bound Reader documents safe over-read. OPEN (R7, D12); it reaches only the footprint of
the fast path, never a result (R166; log entry 8). -/
opaque Config.overreadSafe : Bool

/-- Whether this implementation uses the licence to sample padding lanes that OVERREAD_SAFE gives it: R49 says it
'may' (log entry 8). -/
opaque Config.samplesPadding : Bool

/-- What lane i of `rd_window` holds when it carries no byte of the input: 'any value' in the spec (R30, R166, U3);
no response and no next state depends on it (log entry 8). -/
opaque Config.padding : Nat → Byte

end Sys2Proof
end

