-- ==== Sys2Proof/Machine/Format.lean ====
section
/-! DEFINITION. The pure functions of the spec: bit counts and little-endian values (00_scope.md R12), the required
length (41_length.md R120) and the wire format (40_wire_format.md R100 to R108). As in R12, they compute on integers of
unbounded precision. -/

namespace Sys2Proof.Machine

/-- `bitlen(v)`: 0 for 0, otherwise the position of the highest set bit plus one (R12). -/
def bitlen (v : Nat) : Nat := if v = 0 then 0 else Nat.log2 v + 1

/-- `clo8(b)`: how many consecutive 1-bits `b` has from bit 7 downward (R12). -/
def clo8 (b : Byte) : Nat := ((List.range 8).takeWhile (fun k => b.getLsbD (7 - k))).length

/-- `le`: the little-endian value of a run of bytes, the lowest index least significant (R12). -/
def le (bytes : List Byte) : Nat := bytes.foldr (fun b acc => b.toNat + 256 * acc) 0

/-- `reqlen(v)`: the smallest N in 1..8 whose `7*N` payload bits hold v, v = 0 counting as one bit; 9 if none does
(41_length.md R120). -/
def reqlen (v : Nat) : Nat :=
  ((List.range' 1 8).find? (fun n => max 1 (bitlen v) ≤ Config.payloadBitsPerByte * n)).getD Config.escapeLen

/-- `marker(N)`: the `N-1` leading ones and the terminator of a short form's head byte (40_wire_format.md R102). -/
def marker (n : Nat) : Nat := (0xFF <<< (9 - n)) &&& 0xFF

/-- `pmask(N)`: the payload bits of a short form's head byte (40_wire_format.md R102). -/
def pmask (n : Nat) : Nat := 2 ^ (8 - n) - 1

/-- `hlen(b)`: the length a head byte implies (40_wire_format.md R106). -/
def hlen (b : Byte) : Nat := if b = Config.escapeMarker then Config.escapeLen else clo8 b + 1

/-- The head byte of the form of length n that carries v (40_wire_format.md R103, R105). -/
def headByte (n v : Nat) : Byte :=
  if n = Config.escapeLen then Config.escapeMarker
  else BitVec.ofNat 8 (marker n ||| ((v >>> (8 * (n - 1))) &&& pmask n))

/-- Tail byte i, for i from 1: bits `[8*i-1 : 8*(i-1)]` of v (40_wire_format.md R104, R105). -/
def tailByte (v i : Nat) : Byte := BitVec.ofNat 8 ((v >>> (8 * (i - 1))) &&& 0xFF)

/-- The domain of `form`: a short form needs `v < 2^(7*n)`, the escape form carries every 64-bit value
(40_wire_format.md R107). -/
def formDefined (n v : Nat) : Bool :=
  (1 ≤ n && n ≤ 8 && v < 2 ^ (Config.payloadBitsPerByte * n)) || (n == Config.escapeLen && v < 2 ^ 64)

/-- `form(n, v)`: the n bytes of the form, head byte first (40_wire_format.md R107). -/
def form (n v : Nat) : List Byte := headByte n v :: (List.range' 1 (n - 1)).map (tailByte v)

/-- `formval`: the value that a head byte and the tail bytes after it carry; n is their number
(40_wire_format.md R108). -/
def formval (b0 : Byte) (tail : List Byte) : Nat :=
  let n := tail.length + 1
  if n = Config.escapeLen then le tail
  else ((b0.toNat &&& pmask n) <<< (8 * (n - 1))) ||| le tail

end Sys2Proof.Machine
end

