-- ==== Sys2Proof/Machine/Operands.lean ====
section
/-! DEFINITION. The operands: N and V of the command word (30_encoding.md R77), the width selector (30_encoding.md R73)
with the fit test (44_narrowing.md R181), and the implicit operand of the decode commands, the form at the cursor
(43_decoder.md R151, R164). -/

namespace Sys2Proof.Machine

/-- The N operand as an integer 0 to 15, no scaling and no offset (R77). -/
def lengthOperand (n : BitVec 4) : Nat := n.toNat

/-- The V operand as an integer, no sign extension (R77). -/
def valueOperand (v : Value) : Nat := v.toNat

/-- The selector W of a kind (R73). -/
def widthSelector (w : Width) : Nat :=
  match w with
  | .u8 => 0
  | .u16 => 1
  | .u32 => 2
  | .u64 => 3

/-- `width(W) = 8 << W` (R73). -/
def widthBits (w : Width) : Nat := 8 <<< widthSelector w

/-- `max(W) = 2^width(W) - 1` (R73). -/
def widthMax (w : Width) : Nat := 2 ^ widthBits w - 1

/-- `fits(W, v)`: one unsigned comparison (44_narrowing.md R181). -/
def fits (w : Width) (v : Nat) : Bool := v ≤ widthMax w

/-- PACK's first test: no form has the length n (42_encoder.md R134 (1)). -/
def badLength (n : Nat) : Bool := n == 0 || 10 ≤ n

/-- PACK's second test: the value does not fit the short form of length n (42_encoder.md R134 (2)). -/
def badFit (n v : Nat) : Bool := n ≤ 8 && 2 ^ (Config.payloadBitsPerByte * n) ≤ v

/-- The non-consuming view: the bytes of IN at and after the cursor (20_memory.md R46 (b)). -/
def view (inp : List Byte) (rpos : Nat) : List Byte := inp.drop rpos

/-- `dec(IN, RPOS)`: `none` is the spec's `Trunc`, `some (n, v)` the length and the value of the form at the cursor
(43_decoder.md R151). -/
def dec (inp : List Byte) (rpos : Nat) : Option (Nat × Nat) :=
  match view inp rpos with
  | [] => none
  | b0 :: rest =>
    if rest.length + 1 < hlen b0 then none
    else some (hlen b0, formval b0 (rest.take (hlen b0 - 1)))

/-- The form at the head of a 9-byte window: the bit algebra of the fast path, lanes n to 8 unused (43_decoder.md
R164). -/
def decWindow (b0 : Byte) (lanes : List Byte) : Nat × Nat :=
  (hlen b0, formval b0 (lanes.take (hlen b0 - 1)))

end Sys2Proof.Machine
end

