-- ==== Sys2Proof/Machine/Ops.lean ====
section
/-! DEFINITION. The named operations over the two spaces (20_memory.md R46, R47, R50), delivering a response
(10_state.md R28, R29), taking an error (60_exceptions.md R216), reset (10_state.md R32), and the operations the
instruction families share. There is no return from an error (60_exceptions.md R217), so none is defined. -/

namespace Sys2Proof.Machine

/-- What a meaning answers. -/
abbrev Result := Host.Outcome State Fault Refusal

/-- `remaining = IN_LEN - RPOS` (20_memory.md R46 (a)). -/
def State.remaining (s : State) : Nat := s.inp.length - s.rpos

/-- One byte of IN, if the index is below IN_LEN (20_memory.md R46). -/
def State.inByte (s : State) (a : Nat) : Option Byte := s.inp[a]?

/-- One byte of OUT, if the index is below OUT_LEN (10_state.md R25). -/
def State.outByte (s : State) (a : Nat) : Option Byte := s.out[a]?

/-- The (address, byte) view of a space: its cells in rising order of index (10_state.md R23, R25; log entry 5). -/
def spaceCells (space : List Byte) : List Host.Cell := space.zipIdx.map (fun p => (p.2, p.1))

/-- The canonical form of a cell list that is a whole space: addresses 0, 1, 2, ... with no gap and no repeat
(10_state.md R23: every byte of IN has a definite value; log entry 5). -/
abbrev Memory.wf (m : List Host.Cell) : Prop := m.map Prod.fst = List.range m.length

/-- `MemRead(a, n)`, defined only when `a + n <= IN_LEN` (20_memory.md R46). -/
def State.memRead (s : State) (a n : Nat) : Option (List Byte) :=
  if a + n ≤ s.inp.length then some ((s.inp.drop a).take n) else none

/-- `Consume(k)`, defined only for `0 <= k <= 9` and `k <= remaining` (20_memory.md R47). -/
def State.consume (s : State) (k : Nat) : Option State :=
  if k ≤ 9 ∧ k ≤ s.remaining then some { s with rpos := s.rpos + k } else none

/-- `Append(n, B)` with n the number of bytes of B, defined only for `1 <= n <= 9` (20_memory.md R50). -/
def State.append (s : State) (bytes : List Byte) : Option State :=
  if 1 ≤ bytes.length ∧ bytes.length ≤ 9 then some { s with out := s.out ++ bytes } else none

/-- The output ports with a response: `rd_consume` the bytes consumed (43_decoder.md R162), the one append on
`wr_count` and `wr_bytes`, lane i the byte i and the other lanes 0 (42_encoder.md R135, 10_state.md R30), and the
response (10_state.md R29). `cmd_ready` is 1 again, since the command is over (log entry 4). -/
def Ports.drive (consumed : Nat) (appended : List Byte) (r : Response) : Ports where
  cmdReady := true
  rdConsume := BitVec.ofNat 4 consumed
  wrValid := !appended.isEmpty
  wrCount := BitVec.ofNat 4 appended.length
  wrBytes := BitVec.ofNat 72 (le appended)
  rspValid := true
  rspStatus := statusCode r.status
  rspLen := r.len
  rspValue := r.value

/-- The command ends: its response is on the ports and in the host's record, and nothing is in flight (10_state.md
R28, 70_reset_and_hazards.md R245, R246). -/
def State.deliver (s : State) (consumed : Nat) (appended : List Byte) (r : Response) : State :=
  { s with
    ports := Ports.drive consumed appended r
    inFlight := none
    responses := s.responses ++ [r] }

/-- `respond(len, value)`: the status is OK (00_scope.md R13). -/
def State.respond (s : State) (consumed : Nat) (appended : List Byte) (len value : Nat) : State :=
  s.deliver consumed appended ⟨.ok, BitVec.ofNat 4 len, BitVec.ofNat 64 value⟩

/-- `raise <Status>`, the whole of taking an error: the value is 0 and `len` is the number of bytes the command has
consumed (10_state.md R28, 60_exceptions.md R216). Nothing is saved and no handler runs. -/
def State.raise (s : State) (st : Status) (consumed : Nat) : State :=
  s.deliver consumed [] ⟨st, BitVec.ofNat 4 consumed, 0⟩

/-- The output ports while a command is in flight: `cmd_ready` is 0 and nothing is presented (70_reset_and_hazards.md
R246; log entry 4). -/
def Ports.busy : Ports := { Ports.idle with cmdReady := false }

/-- Reset: the unit is idle, a command in flight is abandoned whole; IN, RPOS and OUT are the host's and stay
(10_state.md R32, 70_reset_and_hazards.md R240, R241). -/
def State.applyReset (s : State) : State := { s with ports := Ports.idle, inFlight := none }

/-- Append the form of length n that carries v and respond with n: the success of PACK and of ENCODE (42_encoder.md
R131, R137). -/
def appendForm (n v : Nat) (s : State) : Result :=
  match s.append (form n v) with
  | none => .fault .appendSize
  | some s' => .next (s'.respond 0 (form n v) n 0)

/-- `fitchk(W, v)`, the common meaning of the four FITCHK commands (44_narrowing.md R182). -/
def fitchk (w : Width) (v : Nat) (s : State) : Result :=
  if fits w v then .next (s.respond 0 [] 0 v) else .next (s.raise .range 0)

/-- A decode needs the cursor inside the input (10_state.md R33); elsewhere the spec gives it no meaning
(93_implementation_defined.md U9). -/
def withCursor (s : State) (r : Result) : Result :=
  if s.rpos ≤ s.inp.length then r else .refused .cursorOutsideInput

/-- The form at the cursor on either path: the safe path computes `dec` (43_decoder.md R152), the fast path reads one
window of 9 bytes when 9 remain and otherwise falls back (43_decoder.md R164). -/
def decodeForm (p : Path) (s : State) : Except Fault (Option (Nat × Nat)) :=
  match p with
  | .safe => .ok (dec s.inp s.rpos)
  | .fast =>
    if Config.window ≤ s.remaining then
      match s.memRead s.rpos Config.window with
      | some (b0 :: lanes) => .ok (some (decWindow b0 lanes))
      | _ => .error .readOutsideInput
    else .ok (dec s.inp s.rpos)

/-- The decode commands after the form is read: TRUNCATED consumes nothing; a form is consumed whole and only then
checked against the width, if the command has one (43_decoder.md R152, R154, 44_narrowing.md R183, R184). -/
def finishDecode (fit : Nat → Bool) (r : Except Fault (Option (Nat × Nat))) (s : State) : Result :=
  match r with
  | .error f => .fault f
  | .ok none => .next (s.raise .truncated 0)
  | .ok (some (n, v)) =>
    match s.consume n with
    | none => .fault .consumePastEnd
    | some s' => if fit v then .next (s'.respond n [] n v) else .next (s'.raise .range n)

/-- A 64-bit decode on a path (43_decoder.md R152, R164). -/
def decode64 (p : Path) (s : State) : Result :=
  withCursor s (finishDecode (fun _ => true) (decodeForm p s) s)

/-- `decas(W, F)`, the common meaning of the eight DECODE_AS commands (44_narrowing.md R183). -/
def decas (w : Width) (p : Path) (s : State) : Result :=
  withCursor s (finishDecode (fits w) (decodeForm p s) s)

end Sys2Proof.Machine
end

