-- ==== Sys2Proof/Machine/Decoder.lean ====
section
/-! DEFINITION. The meanings of DECODE and DECODE.F (43_decoder.md). -/

namespace Sys2Proof.Machine

/-- DECODE, the safe path (R152). -/
def execDecode (s : State) : Result := decode64 .safe s

/-- DECODE.F, the fast path (R164). -/
def execDecodeF (s : State) : Result := decode64 .fast s

end Sys2Proof.Machine
end

