-- ==== Sys2Proof/Machine/Encoder.lean ====
section
/-! DEFINITION. The meanings of REQLEN (41_length.md), PACK and ENCODE (42_encoder.md). -/

namespace Sys2Proof.Machine

/-- REQLEN: the required length in `len`, no space touched (R121). -/
def execReqlen (v : Value) (s : State) : Result :=
  .next (s.respond 0 [] (reqlen (valueOperand v)) 0)

/-- PACK: N is tested first, then V against N, and the form of length N is appended (R131, R134). -/
def execPack (n : BitVec 4) (v : Value) (s : State) : Result :=
  if badLength (lengthOperand n) then .next (s.raise .badlen 0)
  else if badFit (lengthOperand n) (valueOperand v) then .next (s.raise .badlen 0)
  else appendForm (lengthOperand n) (valueOperand v) s

/-- ENCODE: the form of the required length is appended; the status is always OK (R137). -/
def execEncode (v : Value) (s : State) : Result :=
  appendForm (reqlen (valueOperand v)) (valueOperand v) s

end Sys2Proof.Machine
end

