-- ==== Sys2Proof/Machine/Narrowing.lean ====
section
/-! DEFINITION. The meanings of FITCHK.* and DECODE_AS.* (44_narrowing.md). -/

namespace Sys2Proof.Machine

/-- FITCHK.U8 (R185). -/
def execFitchkU8 (v : Value) (s : State) : Result := fitchk .u8 (valueOperand v) s

/-- FITCHK.U16 (R186). -/
def execFitchkU16 (v : Value) (s : State) : Result := fitchk .u16 (valueOperand v) s

/-- FITCHK.U32 (R187). -/
def execFitchkU32 (v : Value) (s : State) : Result := fitchk .u32 (valueOperand v) s

/-- FITCHK.U64 (R188). -/
def execFitchkU64 (v : Value) (s : State) : Result := fitchk .u64 (valueOperand v) s

/-- DECODE_AS.U8 (R189). -/
def execDecodeAsU8 (s : State) : Result := decas .u8 .safe s

/-- DECODE_AS.U16 (R190). -/
def execDecodeAsU16 (s : State) : Result := decas .u16 .safe s

/-- DECODE_AS.U32 (R191). -/
def execDecodeAsU32 (s : State) : Result := decas .u32 .safe s

/-- DECODE_AS.U64 (R192). -/
def execDecodeAsU64 (s : State) : Result := decas .u64 .safe s

/-- DECODE_AS.U8.F (R193). -/
def execDecodeAsU8F (s : State) : Result := decas .u8 .fast s

/-- DECODE_AS.U16.F (R194). -/
def execDecodeAsU16F (s : State) : Result := decas .u16 .fast s

/-- DECODE_AS.U32.F (R195). -/
def execDecodeAsU32F (s : State) : Result := decas .u32 .fast s

/-- DECODE_AS.U64.F (R196). -/
def execDecodeAsU64F (s : State) : Result := decas .u64 .fast s

end Sys2Proof.Machine
end

