-- ==== Sys2Proof/Machine/Dispatch.lean ====
section
/-! DEFINITION. The meaning of every instruction: one arm per constructor (00_scope.md R10, 30_encoding.md R75). -/

namespace Sys2Proof.Machine

def exec (i : Instr) (s : State) : Host.Outcome State Fault Refusal :=
  match i with
  | .reqlen v => Sys2Proof.Machine.execReqlen v s
  | .pack n v => Sys2Proof.Machine.execPack n v s
  | .encode v => Sys2Proof.Machine.execEncode v s
  | .fitchkU8 v => Sys2Proof.Machine.execFitchkU8 v s
  | .fitchkU16 v => Sys2Proof.Machine.execFitchkU16 v s
  | .fitchkU32 v => Sys2Proof.Machine.execFitchkU32 v s
  | .fitchkU64 v => Sys2Proof.Machine.execFitchkU64 v s
  | .decode => Sys2Proof.Machine.execDecode s
  | .decodeF => Sys2Proof.Machine.execDecodeF s
  | .decodeAsU8 => Sys2Proof.Machine.execDecodeAsU8 s
  | .decodeAsU16 => Sys2Proof.Machine.execDecodeAsU16 s
  | .decodeAsU32 => Sys2Proof.Machine.execDecodeAsU32 s
  | .decodeAsU64 => Sys2Proof.Machine.execDecodeAsU64 s
  | .decodeAsU8F => Sys2Proof.Machine.execDecodeAsU8F s
  | .decodeAsU16F => Sys2Proof.Machine.execDecodeAsU16F s
  | .decodeAsU32F => Sys2Proof.Machine.execDecodeAsU32F s
  | .decodeAsU64F => Sys2Proof.Machine.execDecodeAsU64F s

end Sys2Proof.Machine
end

