-- ==== Sys2Proof/Machine/Sequencer.lean ====
section
/-! DEFINITION. How commands reach the unit: acceptance and completion of a command (00_scope.md R9, R10,
70_reset_and_hazards.md R246), the Writer's handshake (20_memory.md R51), the host's directives (30_encoding.md R84),
reset (10_state.md R32). The unit fetches nothing (10_state.md R21): the next command is the next event of the
schedule. -/

namespace Sys2Proof.Machine

/-- The unit accepts a command word: `cmd_ready` goes to 0 and the command is in flight (10_state.md R29,
70_reset_and_hazards.md R246). -/
def State.accept (s : State) (cw : CmdWord) (rest : List Event) : State :=
  { s with schedule := rest, inFlight := some cw, ports := Ports.busy }

/-- A word that spells no operation answers ILLEGAL and does nothing else (30_encoding.md R78, 60_exceptions.md
R214). -/
def illegalCommand (s : State) : Result := .next (s.raise .illegal 0)

/-- The meaning of a command word: look OP up, then run the operation (00_scope.md R10, 30_encoding.md R81). -/
def execWord (cw : CmdWord) (s : State) : Result :=
  match decodeWord cw with
  | .ok i => exec i s
  | .error _ => illegalCommand s

/-- The command `t` would complete waits because the Writer does not accept its append: the append is presented on
`wr_valid`, `wr_count` and `wr_bytes`, nothing has happened yet, and no response is given (20_memory.md R51). -/
def State.waitForWriter (s t : State) : State :=
  { s with ports := { Ports.busy with
      wrValid := true, wrCount := t.ports.wrCount, wrBytes := t.ports.wrBytes } }

/-- The Writer's handshake: an append happens when `wr_valid` and `wr_ready` are both 1; until then the whole command
waits (10_state.md R29, 20_memory.md R51, R53). -/
def writerGate (s : State) (r : Result) : Result :=
  match r with
  | .next t => if t.ports.wrValid && !s.wrReady then .next (s.waitForWriter t) else .next t
  | .fault f => .fault f
  | .refused e => .refused e

/-- Run a command that has been accepted, to its response or to its wait for the Writer (00_scope.md R9). -/
def runCommand (cw : CmdWord) (s : State) : Result := writerGate s (execWord cw s)

/-- `.in`: IN becomes these bytes and RPOS 0 (30_encoding.md R84). -/
def State.bindIn (s : State) (bytes : List Byte) : State := { s with inp := bytes, rpos := 0 }

/-- `.rpos k`: RPOS becomes k, which must lie in 0..IN_LEN (30_encoding.md R84, 10_state.md R26). -/
def setRposTo (s : State) (k : Nat) : Result :=
  if k ≤ s.inp.length then .next { s with rpos := k } else .refused .rposOutsideInput

/-- `.out`: OUT becomes these bytes (30_encoding.md R84). -/
def State.bindOut (s : State) (bytes : List Byte) : State := { s with out := bytes }

/-- `.in_from_out`: IN becomes a copy of OUT and RPOS 0 (30_encoding.md R84, 20_memory.md R41). -/
def State.bindInFromOut (s : State) : State := s.bindIn s.out

/-- The state in which an event between commands takes effect: the event is taken off the schedule and the last
response has left the ports (`rsp_valid` is 1 for one cycle, 10_state.md R29; log entry 4). -/
def State.betweenCommands (s : State) (rest : List Event) : State :=
  { s with schedule := rest, ports := Ports.idle }

/-- No command is in flight: the next event of the schedule happens; with no event left the unit stays idle
(10_state.md R26, R32, 30_encoding.md R84, 70_reset_and_hazards.md R245). -/
def hostStep (s : State) : Result :=
  match s.schedule with
  | [] => .next (s.betweenCommands [])
  | .command cw :: rest => runCommand cw (s.accept cw rest)
  | .bindIn bytes :: rest => .next ((s.betweenCommands rest).bindIn bytes)
  | .setRpos k :: rest => setRposTo (s.betweenCommands rest) k
  | .bindOut bytes :: rest => .next ((s.betweenCommands rest).bindOut bytes)
  | .inFromOut :: rest => .next (s.betweenCommands rest).bindInFromOut
  | .reset :: rest => .next (s.betweenCommands rest).applyReset
  | .commandCut cw :: rest => .next (s.accept cw rest).applyReset
  | .writerReady ready :: rest => .next { s.betweenCommands rest with wrReady := ready }

/-- Whether an event is the host's own doing, a command or a directive: the host is sequential and owes the unit
exclusive ownership, so while a command is in flight these wait for its response (70_reset_and_hazards.md R246, R247;
log entry 3). -/
def isHostAction (e : Event) : Bool :=
  match e with
  | .command _ => true
  | .bindIn _ => true
  | .setRpos _ => true
  | .bindOut _ => true
  | .inFromOut => true
  | .commandCut _ => true
  | .reset => false
  | .writerReady _ => false

/-- A command is in flight and the Writer holds it: only the Writer and reset can end the wait, and there is no timeout
(20_memory.md R51, 60_exceptions.md R219); the host's own actions keep their order and come later. With no event of the
Writer or of reset left the command waits for ever, which is no final state (93_implementation_defined.md U5). -/
def waitStep (s : State) : Result :=
  match s.schedule.dropWhile isHostAction with
  | .reset :: rest => .next { s with schedule := s.schedule.takeWhile isHostAction ++ rest }.applyReset
  | .writerReady ready :: rest =>
    .next { s with schedule := s.schedule.takeWhile isHostAction ++ rest, wrReady := ready }
  | _ => .next s

/-- One step: what happens next between commands, or the completion of the command in flight once the Writer is ready,
or its wait. -/
def advance (s : State) : Result :=
  match s.inFlight with
  | none => hostStep s
  | some cw => if s.wrReady then runCommand cw s else waitStep s

/-- The state in which the host presents this word next, nothing is in flight and the Writer is ready: the very next
step runs the word (log entry 6). -/
def State.present (s : State) (cw : CmdWord) : State :=
  { s with inFlight := none, wrReady := true, schedule := .command cw :: s.schedule }

end Sys2Proof.Machine
end

