-- ==== Sys2Proof/Machine/Step.lean ====
section
/-! DEFINITION. The step function, and the state that runs a given command word next. -/

namespace Sys2Proof.Machine

/-- One step of the machine (Machine/Sequencer.lean). -/
def step (s : State) : Host.Outcome State Fault Refusal := advance s

/-- `s` with the word of opcode-table bits `w` presented as the next command (30_encoding.md R70; log entry 6). -/
def State.withFetchWord (s : State) (nbits w : Nat) : State := s.present (tableWord nbits w)

end Sys2Proof.Machine
end

