-- ==== Sys2Proof/Machine/Footprint.lean ====
section
/-! DEFINITION. The footprint of a command: which lanes of the Reader's window it samples, and which indices of IN those
are (00_scope.md R16, 20_memory.md R48, R49, R52). A footprint is no state and changes no response. -/

namespace Sys2Proof.Machine

/-- The decode path of an instruction, if it is a decode (30_encoding.md R74, R75). -/
def decodePath (i : Instr) : Option Path :=
  match i with
  | .reqlen _ => none
  | .pack _ _ => none
  | .encode _ => none
  | .fitchkU8 _ => none
  | .fitchkU16 _ => none
  | .fitchkU32 _ => none
  | .fitchkU64 _ => none
  | .decode => some .safe
  | .decodeF => some .fast
  | .decodeAsU8 => some .safe
  | .decodeAsU16 => some .safe
  | .decodeAsU32 => some .safe
  | .decodeAsU64 => some .safe
  | .decodeAsU8F => some .fast
  | .decodeAsU16F => some .fast
  | .decodeAsU32F => some .fast
  | .decodeAsU64F => some .fast

/-- The lanes the safe path samples: none if nothing remains, the head byte, and the tail only if it is whole (R48). -/
def safeLanes (s : State) : List Nat :=
  match view s.inp s.rpos with
  | [] => []
  | b0 :: _ => if hlen b0 ≤ s.remaining then List.range (hlen b0) else [0]

/-- The lanes the fast path samples: all nine when nine bytes remain, and otherwise those of the safe path unless the
implementation uses the licence of a Reader with safe over-read (R49). -/
def fastLanes (s : State) : List Nat :=
  if Config.window ≤ s.remaining then List.range Config.window
  else if Config.overreadSafe && Config.samplesPadding then List.range Config.window
  else safeLanes s

/-- The lanes of `rd_window` a command samples (R48, R49, R52). -/
def sampledLanes (i : Instr) (s : State) : List Nat :=
  match decodePath i with
  | none => []
  | some .safe => safeLanes s
  | some .fast => fastLanes s

/-- The footprint: the indices of IN among the sampled lanes; a lane at or beyond `remaining` is padding and no index
of IN (00_scope.md R16, 20_memory.md R49). -/
def footprint (i : Instr) (s : State) : List Nat :=
  ((sampledLanes i s).filter (· < s.remaining)).map (s.rpos + ·)

end Sys2Proof.Machine
end

