-- ==== Sys2Proof/Machine/Ports.lean ====
section
/-! DEFINITION. The input ports that are functions of the state (10_state.md R29, R30), and the decoder over the 72-bit
window port (43_decoder.md R166, R167). -/

namespace Sys2Proof.Machine

/-- The event the next step takes: the first of the schedule between commands, the first of the Writer or of reset while
a command waits, none while a command can complete (20_memory.md R51, 70_reset_and_hazards.md R246; log entry 3). -/
def nextEvent (s : State) : Option Event :=
  match s.inFlight with
  | none => s.schedule.head?
  | some _ => if s.wrReady then none else (s.schedule.dropWhile isHostAction).head?

/-- The command word on `cmd_op`, `cmd_n`, `cmd_v`, when the host presents one (R29, 30_encoding.md R70). -/
def presentedWord (s : State) : Option CmdWord :=
  match nextEvent s with
  | some (.command cw) => some cw
  | some (.commandCut cw) => some cw
  | _ => none

/-- `cmd_valid`: the host presents a command word (R29). -/
def cmdValid (s : State) : Bool := (presentedWord s).isSome

/-- `rst_n`, active low: 0 when the next event is a reset (R29, R32). -/
def rstN (s : State) : Bool := nextEvent s != some .reset

/-- `rd_remaining`, AW bits wide: `IN_LEN - RPOS` (R29). -/
def rdRemaining (s : State) : BitVec Config.addrWidth := BitVec.ofNat Config.addrWidth s.remaining

/-- Lane i of `rd_window`: the byte at `RPOS + i` if one remains there, otherwise padding (R29, R30). -/
def windowLane (pad : Nat → Byte) (inp : List Byte) (rpos i : Nat) : Byte := ((view inp rpos)[i]?).getD (pad i)

/-- `rd_window` for a given padding: lane i is bits `[8*i+7 : 8*i]` (R29, R30). -/
def windowWith (pad : Nat → Byte) (inp : List Byte) (rpos : Nat) : BitVec 72 :=
  BitVec.ofNat 72 (le ((List.range Config.window).map (windowLane pad inp rpos)))

/-- `rd_window` as the Reader of this machine drives it; its padding is any value (R29, R166, log entry 8). -/
def rdWindow (s : State) : BitVec 72 := windowWith Config.padding s.inp s.rpos

/-- Lane i of a 72-bit port (R30). -/
def portLane (w : BitVec 72) (i : Nat) : Byte := w.extractLsb' (8 * i) 8

/-- The value a window holds for a form of length n (43_decoder.md R167). -/
def windowValue (w : BitVec 72) (n : Nat) : Nat :=
  if n = Config.escapeLen then (w.extractLsb' 8 64).toNat
  else (((portLane w 0).toNat &&& pmask n) <<< (8 * (n - 1))) ||| (w.toNat >>> 8) % 2 ^ (8 * (n - 1))

/-- The decoder over the ports: the window and the number of bytes that remain; padding does not count towards
`remaining` (43_decoder.md R166, R167). -/
def decPorts (remaining : Nat) (w : BitVec 72) : Option (Nat × Nat) :=
  if remaining = 0 then none
  else if remaining < hlen (portLane w 0) then none
  else some (hlen (portLane w 0), windowValue w (hlen (portLane w 0)))

end Sys2Proof.Machine
end

