-- ==== Sys2Proof/Safety.lean ====
section
/-! DEFINITION. The terms claims are stated in: a command's response, what it leaves unchanged, and the invariants of a
state. -/

namespace Sys2Proof.Machine

/-- `t` is `s` after a command that answered `r`: the response is on the ports and added to the host's record, no
command is in flight, and the outside's plans and the Writer's `wr_ready` are untouched (10_state.md R28, R29). -/
abbrev Responds (s t : State) (r : Response) : Prop :=
  t.responses = s.responses ++ [r] ∧ t.ports.rspValid = true ∧ t.ports.rspStatus = statusCode r.status ∧
    t.ports.rspLen = r.len ∧ t.ports.rspValue = r.value ∧ t.inFlight = none ∧
    t.schedule = s.schedule ∧ t.wrReady = s.wrReady

/-- IN is unchanged, byte for byte and in length (10_state.md R23). -/
def KeepsInput (s t : State) : Prop := t.inp.length = s.inp.length ∧ ∀ a, t.inByte a = s.inByte a

/-- OUT is unchanged, byte for byte and in length (10_state.md R25). -/
def KeepsOutput (s t : State) : Prop := t.out.length = s.out.length ∧ ∀ a, t.outByte a = s.outByte a

/-- A command that touches neither space and not the cursor. -/
def KeepsSpaces (s t : State) : Prop := KeepsInput s t ∧ t.rpos = s.rpos ∧ KeepsOutput s t

/-- The unit drives no append and no consume. -/
abbrev DrivesNothing (t : State) : Prop :=
  t.ports.wrValid = false ∧ t.ports.rdConsume = 0

/-- The cursor is inside the input: `0 <= RPOS <= IN_LEN` (10_state.md R24, R34). -/
abbrev CursorInside (s : State) : Prop := s.rpos ≤ s.inp.length

/-- IN is shorter than `2^AW` (10_state.md R23): a premise on the host's bindings, AW being open. -/
def InputWithinAW (s : State) : Prop := s.inp.length < 2 ^ Config.addrWidth

/-- A response the unit can give: `len` is at most 9, and the value is 0 on every status but OK (10_state.md R28). -/
abbrev Response.Legal (r : Response) : Prop := r.len ≤ 9 ∧ (r.status ≠ .ok → r.value = 0)

/-- Every recorded response is one the unit can give (10_state.md R28). -/
abbrev ResponsesLegal (s : State) : Prop := ∀ r ∈ s.responses, r.Legal

/-- The output ports hold what the spec says they can: codes 5 to 7 never, counts at most 9, the lanes at or above
`wr_count` 0, a presented append of at least one byte (10_state.md R28 to R30, 60_exceptions.md R210). -/
abbrev Ports.Legal (p : Ports) : Prop :=
  p.rspStatus ≤ 4 ∧ p.rspLen ≤ 9 ∧ p.rdConsume ≤ 9 ∧ p.wrCount ≤ 9 ∧
    p.wrBytes.toNat < 2 ^ (8 * p.wrCount.toNat) ∧ (p.wrValid = true ↔ p.wrCount ≠ 0) ∧
    (p.rspStatus ≠ 0 → p.rspValue = 0)

/-- `cmd_ready` is 0 exactly while a command is in flight, and then no response is present (70_reset_and_hazards.md
R246). -/
abbrev HandshakeLegal (s : State) : Prop :=
  (s.ports.cmdReady = false ↔ s.inFlight.isSome = true) ∧ (s.inFlight.isSome = true → s.ports.rspValid = false)

/-- A command is in flight only while it waits for the Writer, with its append presented (20_memory.md R51). -/
abbrev WaitsOnlyForWriter (s : State) : Prop :=
  s.inFlight.isSome = true → s.ports.wrValid = true

/-- The invariant of the whole state. -/
abbrev State.Inv (s : State) : Prop :=
  CursorInside s ∧ ResponsesLegal s ∧ s.ports.Legal ∧ HandshakeLegal s ∧ WaitsOnlyForWriter s

/-- A decode command, on either path and at any width (30_encoding.md R75). -/
abbrev IsDecode (i : Instr) : Prop := (decodePath i).isSome = true

/-- The width a decode command checks its value against, if it is a DECODE_AS (44_narrowing.md R183). -/
def decodeWidth (i : Instr) : Option Width :=
  match i with
  | .reqlen _ => none
  | .pack _ _ => none
  | .encode _ => none
  | .fitchkU8 _ => none
  | .fitchkU16 _ => none
  | .fitchkU32 _ => none
  | .fitchkU64 _ => none
  | .decode => none
  | .decodeF => none
  | .decodeAsU8 => some .u8
  | .decodeAsU16 => some .u16
  | .decodeAsU32 => some .u32
  | .decodeAsU64 => some .u64
  | .decodeAsU8F => some .u8
  | .decodeAsU16F => some .u16
  | .decodeAsU32F => some .u32
  | .decodeAsU64F => some .u64

/-- A command given k times in a row, stopping where one does not answer a next state (43_decoder.md R160). -/
def repeatExec (i : Instr) : Nat → State → Host.Outcome State Fault Refusal
  | 0, s => .next s
  | k + 1, s =>
    match exec i s with
    | .next t => repeatExec i k t
    | .fault f => .fault f
    | .refused e => .refused e

end Sys2Proof.Machine
end

