-- ==== Sys2Proof/Certificates/Slice0/Obligations.lean ====
section
/-! DEFINITION. The statements for the provers. Each says which rule of spec/ it formalises. -/

open Sys2Proof Sys2Proof.Machine

namespace Sys2Proof.Claims

/-- The 17 legal OP values (30_encoding.md R75). -/
def legalOps : List (BitVec 8) :=
  [0x10#8, 0x20#8, 0x30#8, 0x40#8, 0x41#8, 0x42#8, 0x43#8, 0x50#8, 0x58#8, 0x60#8, 0x61#8, 0x62#8, 0x63#8, 0x68#8,
    0x69#8, 0x6A#8, 0x6B#8]

/-- The OP values of the operations that read V (30_encoding.md R75). -/
def readsV : List (BitVec 8) := [0x10#8, 0x20#8, 0x30#8, 0x40#8, 0x41#8, 0x42#8, 0x43#8]

/-- Every word with this OP is the instruction `mk` makes of it, whatever its other fields hold (30_encoding.md R75,
R76). -/
def Spells (op : BitVec 8) (mk : CmdWord → Instr) : Prop := ∀ cw, opField cw = op → decodeWord cw = .ok (mk cw)

/-- The unit is idle, port by port (10_state.md R32). -/
def IdlePorts (t : State) : Prop :=
  t.ports.cmdReady = true ∧ t.ports.rspValid = false ∧ t.ports.wrValid = false ∧ t.ports.rdConsume = 0 ∧
    t.ports.rspStatus = 0 ∧ t.ports.rspLen = 0 ∧ t.ports.rspValue = 0 ∧ t.ports.wrCount = 0 ∧ t.ports.wrBytes = 0

/-- `t` is `s` with the bytes `bs` appended to OUT in their order: OUT_LEN grows by their number, byte i of them stands
at index `OUT_LEN + i`, every other index of OUT reads as before (20_memory.md R50). -/
def Appends (s t : State) (bs : List Byte) : Prop :=
  t.out.length = s.out.length + bs.length ∧ (∀ i, i < bs.length → t.outByte (s.out.length + i) = bs[i]?) ∧
    ∀ a, ¬(s.out.length ≤ a ∧ a < s.out.length + bs.length) → t.outByte a = s.outByte a

/-- A command that appends nothing and consumes nothing but may answer anything. -/
def FailsInPlace (i : Instr) (s : State) (st : Status) : Prop :=
  ∃ t, exec i s = .next t ∧ Responds s t ⟨st, 0, 0⟩ ∧ KeepsSpaces s t ∧ DrivesNothing t

/-- A command that appends nothing: any but ENCODE, a PACK only where it answers BADLEN (20_memory.md R50, R52,
42_encoder.md R134). -/
def AppendsNothing (i : Instr) : Prop :=
  (∀ v, i ≠ .encode v) ∧
    ∀ n v, i = .pack n v → n = 0 ∨ 10 ≤ n.toNat ∨ (n.toNat ≤ 8 ∧ 2 ^ (7 * n.toNat) ≤ v.toNat)

/-- The step from `s` waits for the Writer with the append of `bs` presented: the word is in flight, nothing has happened
to either space and no response is given (20_memory.md R51, R53). -/
def WaitsWith (s : State) (cw : CmdWord) (rest : List Event) (bs : List Byte) : Prop :=
  ∃ t, step s = .next t ∧ KeepsSpaces s t ∧ t.responses = s.responses ∧ t.schedule = rest ∧ t.inFlight = some cw ∧
    t.wrReady = false ∧ t.ports.cmdReady = false ∧ t.ports.rspValid = false ∧ t.ports.wrValid = true ∧
    t.ports.wrCount = BitVec.ofNat 4 bs.length ∧ t.ports.wrBytes = BitVec.ofNat 72 (le bs)

/-- The five decode commands on the safe path (20_memory.md R48). -/
def safeDecodes : List Instr := [.decode, .decodeAsU8, .decodeAsU16, .decodeAsU32, .decodeAsU64]

/-- The five decode commands on the fast path (20_memory.md R49). -/
def fastDecodes : List Instr := [.decodeF, .decodeAsU8F, .decodeAsU16F, .decodeAsU32F, .decodeAsU64F]

/-- A FITCHK command of this bound (44_narrowing.md R182). -/
def FitCheckAnswers (mk : Value → Instr) (bound : Nat) : Prop :=
  ∀ v s, ∃ t, exec (mk v) s = .next t ∧
    Responds s t (if v.toNat ≤ bound then ⟨.ok, 0, v⟩ else ⟨.range, 0, 0⟩) ∧ KeepsSpaces s t ∧ DrivesNothing t

/-- The form at the cursor is incomplete: the three cases of 43_decoder.md R153. -/
def Incomplete (s : State) : Prop :=
  s.inp.length - s.rpos = 0 ∨ (s.inByte s.rpos = some 0xFF#8 ∧ s.inp.length - s.rpos < 9) ∨
    ∃ b0, s.inByte s.rpos = some b0 ∧ b0 ≠ 0xFF#8 ∧ s.inp.length - s.rpos < clo8 b0 + 1

/-- A decode command, with the largest value it accepts, on a state whose form at the cursor is complete: the cursor
advances by the length the head byte implies, and the answer is the value or, above the bound, RANGE (43_decoder.md
R152, 44_narrowing.md R183). -/
def DecodeCompletes (i : Instr) (bound : Nat) : Prop :=
  ∀ s b0, s.inByte s.rpos = some b0 → hlen b0 ≤ s.inp.length - s.rpos →
    ∃ t, exec i s = .next t ∧
      Responds s t (if formval b0 ((s.inp.drop (s.rpos + 1)).take (hlen b0 - 1)) ≤ bound
        then ⟨.ok, BitVec.ofNat 4 (hlen b0), BitVec.ofNat 64 (formval b0 ((s.inp.drop (s.rpos + 1)).take (hlen b0 - 1)))⟩
        else ⟨.range, BitVec.ofNat 4 (hlen b0), 0⟩) ∧
      t.rpos = s.rpos + hlen b0 ∧ KeepsInput s t ∧ KeepsOutput s t ∧
      t.ports.wrValid = false ∧ t.ports.rdConsume = BitVec.ofNat 4 (hlen b0)

/-- A decode command on a state whose form at the cursor is not complete: TRUNCATED and nothing moves (43_decoder.md
R153, R154). -/
def DecodeTruncates (i : Instr) : Prop :=
  ∀ s, CursorInside s → Incomplete s → FailsInPlace i s .truncated

/-- The statuses an instruction may answer (60_exceptions.md R210). -/
def allowedStatuses (i : Instr) : List Status :=
  match i with
  | .reqlen _ => [.ok]
  | .pack _ _ => [.ok, .badlen]
  | .encode _ => [.ok]
  | .fitchkU8 _ => [.ok, .range]
  | .fitchkU16 _ => [.ok, .range]
  | .fitchkU32 _ => [.ok, .range]
  | .fitchkU64 _ => [.ok]
  | .decode => [.ok, .truncated]
  | .decodeF => [.ok, .truncated]
  | .decodeAsU8 => [.ok, .truncated, .range]
  | .decodeAsU16 => [.ok, .truncated, .range]
  | .decodeAsU32 => [.ok, .truncated, .range]
  | .decodeAsU64 => [.ok, .truncated]
  | .decodeAsU8F => [.ok, .truncated, .range]
  | .decodeAsU16F => [.ok, .truncated, .range]
  | .decodeAsU32F => [.ok, .truncated, .range]
  | .decodeAsU64F => [.ok, .truncated]

/-- The state in which the host hands OUT to the Reader with the cursor at index k (30_encoding.md R84, 10_state.md
R26). -/
def handedOver (t : State) (k : Nat) : State := { t.bindInFromOut with rpos := k }

/-- Decoding what stands at index k of OUT after the hand-over with instruction i answers v in n bytes and leaves the
cursor n bytes further, at the end of the input. -/
def DecodesAtEnd (i : Instr) (t : State) (k n : Nat) (r : Response) : Prop :=
  ∃ u, exec i (handedOver t k) = .next u ∧ Responds (handedOver t k) u r ∧ u.rpos = k + n ∧ u.rpos = u.inp.length

/-- The narrowing commands with their FITCHK command and their bound, both paths (44_narrowing.md R183, R185 to
R196). -/
def narrowings : List (Instr × (Value → Instr) × Nat) :=
  [(.decodeAsU8, .fitchkU8, 255), (.decodeAsU16, .fitchkU16, 65535), (.decodeAsU32, .fitchkU32, 4294967295),
    (.decodeAsU64, .fitchkU64, 18446744073709551615), (.decodeAsU8F, .fitchkU8, 255),
    (.decodeAsU16F, .fitchkU16, 65535), (.decodeAsU32F, .fitchkU32, 4294967295),
    (.decodeAsU64F, .fitchkU64, 18446744073709551615)]

end Sys2Proof.Claims

open Sys2Proof.Claims

/-! ### Command words -/

/-- Every instruction, at every value of its operands, is decoded back from its word (R70, R75, R77, R82). -/
def Obligations.EncodedInstructionsDecodeBack : Prop := ∀ i : Instr, decodeWord (encode i) = .ok i

/-- R76: OP alone decides whether a word is legal, and two words with the same OP that agree on the fields its operation
reads have the same meaning in every state. -/
def Obligations.UnreadFieldsHaveNoEffect : Prop :=
  ∀ cw cw' : CmdWord, opField cw = opField cw' →
    ((∃ i, decodeWord cw = .ok i) ↔ ∃ i, decodeWord cw' = .ok i) ∧
    ((opField cw = 0x20#8 → nField cw = nField cw') → (opField cw ∈ readsV → vField cw = vField cw') →
      ∀ s, execWord cw s = execWord cw' s)

/-- The legal words are those whose OP is one of the 17 values (R75, R78), which are exactly the values whose subfields
are well formed (R72). -/
def Obligations.LegalWordsAreTheSeventeenOps : Prop :=
  ∀ cw : CmdWord, ((∃ i, decodeWord cw = .ok i) ↔ opField cw ∈ legalOps) ∧
    (opField cw ∈ legalOps ↔ opWellFormed (opField cw) = true)

/-- A legal word assembled again keeps its OP and the fields its operation reads, and has 0 in every other field (R76,
R82). -/
def Obligations.ReassembledWordKeepsReadFields : Prop :=
  ∀ cw i, decodeWord cw = .ok i → opField (encode i) = opField cw ∧
    nField (encode i) = (if opField cw = 0x20#8 then nField cw else 0) ∧
    vField (encode i) = (if opField cw ∈ readsV then vField cw else 0)

/-- Words written out from R70, R71, R75 and the tables of 95_test_vectors.md decode to the instructions they stand for:
one word for every operation. -/
def Obligations.WrittenOutWordsDecode : Prop :=
  decodeWord 0x1000000000000004000#76 = .ok (.reqlen 16384) ∧
  decodeWord 0x202000000000000012C#76 = .ok (.pack 2 300) ∧
  decodeWord 0x3000000000000004000#76 = .ok (.encode 16384) ∧
  decodeWord 0x400000000000000012C#76 = .ok (.fitchkU8 300) ∧
  decodeWord 0x410000000000000012C#76 = .ok (.fitchkU16 300) ∧
  decodeWord 0x42000000000DEADBEEF#76 = .ok (.fitchkU32 0xDEADBEEF) ∧
  decodeWord 0x4300100000000000000#76 = .ok (.fitchkU64 0x0100000000000000) ∧
  decodeWord 0x5000000000000000000#76 = .ok .decode ∧
  decodeWord 0x5800000000000000000#76 = .ok .decodeF ∧
  decodeWord 0x6000000000000000000#76 = .ok .decodeAsU8 ∧
  decodeWord 0x6B00000000000000000#76 = .ok .decodeAsU64F ∧
  decodeWord 0x0000000000000000000#76 = .error (.illegalOp 0x00#8) ∧
  decodeWord 0xFFFFFFFFFFFFFFFFFFF#76 = .error (.illegalOp 0xFF#8)

/-! ### Steps -/

/-- The step that runs a presented command: with the Writer ready, and for a command that appends nothing whatever the
Writer does, it is `exec` of the decoded instruction in the state that has accepted the word, which differs from the
state before in the schedule, the command in flight and the output ports only (R9, R10, R51, R246). -/
def Obligations.StepRunsTheDecodedCommand : Prop :=
  ∀ s cw rest i, s.inFlight = none → s.schedule = .command cw :: rest → decodeWord cw = .ok i →
    (s.wrReady = true ∨ AppendsNothing i) →
    step s = exec i (s.accept cw rest) ∧ (s.accept cw rest).inp = s.inp ∧ (s.accept cw rest).rpos = s.rpos ∧
    (s.accept cw rest).out = s.out ∧ (s.accept cw rest).responses = s.responses ∧
    (s.accept cw rest).wrReady = s.wrReady ∧ (s.accept cw rest).schedule = rest ∧
    (s.accept cw rest).inFlight = some cw ∧ (s.accept cw rest).ports.cmdReady = false

/-- R78: a word whose OP is none of the 17 values answers (ILLEGAL, 0, 0) and changes neither IN, RPOS nor OUT, in every
state that accepts a command, whatever the Writer does and whatever IN holds. The rule lists those OP values in ranges, and
names the all-zero and the all-one word. -/
def Obligations.IllegalWordsAnswerIllegal : Prop :=
  (∀ op : BitVec 8, op ∉ legalOps ↔ op ≤ 0x0F#8 ∨ (0x11#8 ≤ op ∧ op ≤ 0x1F#8) ∨ (0x21#8 ≤ op ∧ op ≤ 0x2F#8) ∨
    (0x31#8 ≤ op ∧ op ≤ 0x3F#8) ∨ (0x44#8 ≤ op ∧ op ≤ 0x4F#8) ∨ (0x51#8 ≤ op ∧ op ≤ 0x57#8) ∨
    (0x59#8 ≤ op ∧ op ≤ 0x5F#8) ∨ (0x64#8 ≤ op ∧ op ≤ 0x67#8) ∨ 0x6C#8 ≤ op) ∧
  opField 0x0000000000000000000#76 ∉ legalOps ∧ opField 0xFFFFFFFFFFFFFFFFFFF#76 ∉ legalOps ∧
  ∀ s cw rest, s.inFlight = none → s.schedule = .command cw :: rest → opField cw ∉ legalOps →
    ∃ t, step s = .next t ∧ Responds { s with schedule := rest } t ⟨.illegal, 0, 0⟩ ∧ KeepsSpaces s t ∧ DrivesNothing t

/-- A command whose append the Writer does not accept waits, ENCODE always and PACK wherever it does not answer BADLEN:
nothing has happened to either space, no response is given, `cmd_ready` is 0 and the append stands on the ports (R51, R53,
R246). -/
def Obligations.CommandWaitsForTheWriter : Prop :=
  ∀ s cw rest, s.inFlight = none → s.schedule = .command cw :: rest → s.wrReady = false →
    (∀ v, decodeWord cw = .ok (.encode v) → WaitsWith s cw rest (form (reqlen v.toNat) v.toNat)) ∧
    ∀ n v, decodeWord cw = .ok (.pack n v) → 1 ≤ n.toNat → n.toNat ≤ 9 →
      (n.toNat ≤ 8 → v.toNat < 2 ^ (7 * n.toNat)) → WaitsWith s cw rest (form n.toNat v.toNat)

/-- A waiting command ends its wait only by the Writer or by reset: with neither ahead the state stays as it is, with no
timeout; `wr_ready` going up changes `wr_ready` alone, and the step after it runs the command; reset abandons it (R51,
R219, R241). -/
def Obligations.WaitEndsOnlyByWriterOrReset : Prop :=
  ∀ s cw, s.inFlight = some cw →
    (s.wrReady = true → ∀ i, decodeWord cw = .ok i → step s = exec i s) ∧
    (s.wrReady = false → (∀ e ∈ s.schedule, isHostAction e = true) → step s = .next s) ∧
    (s.wrReady = false → ∀ pre ready post, (∀ e ∈ pre, isHostAction e = true) →
      s.schedule = pre ++ .writerReady ready :: post →
      step s = .next { s with schedule := pre ++ post, wrReady := ready }) ∧
    (s.wrReady = false → ∀ pre post, (∀ e ∈ pre, isHostAction e = true) → s.schedule = pre ++ .reset :: post →
      ∃ t, step s = .next t ∧ KeepsSpaces s t ∧ t.responses = s.responses ∧ t.inFlight = none ∧ IdlePorts t)

/-- R32 and R241: reset, between commands, cutting a command, or ending a wait, leaves the unit idle with nothing in
flight, and the cut command has appended nothing, consumed nothing and answered nothing; IN, RPOS and OUT stay. -/
def Obligations.ResetAbandonsTheCommandWhole : Prop :=
  ∀ s rest, (s.inFlight = none ∧ (s.schedule = .reset :: rest ∨ ∃ cw, s.schedule = .commandCut cw :: rest)) ∨
      (s.inFlight.isSome = true ∧ s.wrReady = false ∧ s.schedule = .reset :: rest) →
    ∃ t, step s = .next t ∧ IdlePorts t ∧ t.inFlight = none ∧ KeepsSpaces s t ∧ t.responses = s.responses ∧
      t.schedule = rest ∧ t.wrReady = s.wrReady

/-- The state after reset: every port at the value R32 gives and nothing in flight. The empty IN and OUT, RPOS 0,
`wr_ready` 1, the empty schedule and the empty record are the model's choice (log entries 1, 2 and 3). -/
def Obligations.ResetStateIsIdle : Prop :=
  IdlePorts State.reset ∧ State.reset.inFlight = none ∧ State.reset.inp = [] ∧ State.reset.rpos = 0 ∧
    State.reset.out = [] ∧ State.reset.wrReady = true ∧ State.reset.schedule = [] ∧ State.reset.responses = []

/-- R84: what the four host directives do, with everything they do not name unchanged. -/
def Obligations.DirectivesRebindTheSpaces : Prop :=
  ∀ s rest, s.inFlight = none →
    (∀ bytes, s.schedule = .bindIn bytes :: rest → ∃ t, step s = .next t ∧ t.inp = bytes ∧ t.rpos = 0 ∧
      KeepsOutput s t ∧ t.responses = s.responses ∧ t.schedule = rest) ∧
    (∀ k, s.schedule = .setRpos k :: rest → k ≤ s.inp.length → ∃ t, step s = .next t ∧ t.rpos = k ∧
      KeepsInput s t ∧ KeepsOutput s t ∧ t.responses = s.responses ∧ t.schedule = rest) ∧
    (∀ bytes, s.schedule = .bindOut bytes :: rest → ∃ t, step s = .next t ∧ t.out = bytes ∧ t.rpos = s.rpos ∧
      KeepsInput s t ∧ t.responses = s.responses ∧ t.schedule = rest) ∧
    (s.schedule = .inFromOut :: rest → ∃ t, step s = .next t ∧ t.inp = s.out ∧ t.rpos = 0 ∧
      KeepsOutput s t ∧ t.responses = s.responses ∧ t.schedule = rest)

/-- A directive that would put the cursor outside 0..IN_LEN is refused by name (R26, R33; 93 U9). -/
def Obligations.CursorOutsideInputIsRefused : Prop :=
  ∀ s k rest, s.inFlight = none → s.schedule = .setRpos k :: rest → s.inp.length < k →
    step s = .refused .rposOutsideInput

/-! ### REQLEN, PACK, ENCODE -/

/-- R121: REQLEN, every word with OP 0x10, answers (OK, reqlen V, 0) and touches no space; with the rule's corner values
and its example. -/
def Obligations.ReqlenAnswersTheRequiredLength : Prop :=
  Spells 0x10#8 (fun cw => .reqlen (vField cw)) ∧
  (∀ v s, ∃ t, exec (.reqlen v) s = .next t ∧ Responds s t ⟨.ok, BitVec.ofNat 4 (reqlen v.toNat), 0⟩ ∧
    KeepsSpaces s t ∧ DrivesNothing t ∧ 1 ≤ t.ports.rspLen ∧ t.ports.rspLen ≤ 9) ∧
  reqlen 0 = 1 ∧ reqlen 127 = 1 ∧ reqlen 128 = 2 ∧ reqlen (2 ^ 56 - 1) = 8 ∧ reqlen (2 ^ 56) = 9 ∧
    reqlen (2 ^ 64 - 1) = 9 ∧ reqlen 16384 = 3

/-- R122: the closed form of the required length, and its nine thresholds. -/
def Obligations.ReqlenClosedFormAndThresholds : Prop :=
  ∀ v, v < 2 ^ 64 →
    reqlen v = (if 2 ^ 56 ≤ v then 9 else max 1 ((bitlen v + 6) / 7)) ∧
    reqlen v = (if v ≤ 127 then 1 else if v ≤ 16383 then 2 else if v ≤ 2097151 then 3 else if v ≤ 268435455 then 4
      else if v ≤ 34359738367 then 5 else if v ≤ 4398046511103 then 6 else if v ≤ 562949953421311 then 7
      else if v ≤ 72057594037927935 then 8 else 9)

/-- R123: range, monotonicity in the value and in its bit length, fit, minimality. -/
def Obligations.ReqlenIsMonotoneFitsAndIsMinimal : Prop :=
  (∀ v, v < 2 ^ 64 → 1 ≤ reqlen v ∧ reqlen v ≤ 9 ∧ (reqlen v ≤ 8 → v < 2 ^ (7 * reqlen v)) ∧
    formDefined (reqlen v) v = true ∧ ∀ n, n < reqlen v → formDefined n v = false) ∧
  (∀ a b, a ≤ b → b < 2 ^ 64 → reqlen a ≤ reqlen b) ∧
  (∀ a b, a < 2 ^ 64 → b < 2 ^ 64 → bitlen a ≤ bitlen b → reqlen a ≤ reqlen b)

/-- R131 and R134: PACK appends `form(N, V)` and answers (OK, N, 0) exactly when N is 1 to 9 and V fits a short form of
length N; otherwise it answers (BADLEN, 0, 0) and appends nothing. IN and RPOS are never touched. Every word with OP
0x20 is PACK; with the rule's example. -/
def Obligations.PackAppendsItsFormOrAnswersBadlen : Prop :=
  Spells 0x20#8 (fun cw => .pack (nField cw) (vField cw)) ∧ form 2 300 = [0x81#8, 0x2C#8] ∧
  ∀ n v s,
    if n = 0 ∨ 10 ≤ n.toNat then FailsInPlace (.pack n v) s .badlen
    else if n.toNat ≤ 8 ∧ 2 ^ (7 * n.toNat) ≤ v.toNat then FailsInPlace (.pack n v) s .badlen
    else ∃ t, exec (.pack n v) s = .next t ∧ Responds s t ⟨.ok, n, 0⟩ ∧ Appends s t (form n.toNat v.toNat) ∧
      (form n.toNat v.toNat).length = n.toNat ∧ KeepsInput s t ∧ t.rpos = s.rpos ∧ t.ports.rdConsume = 0

/-- R137: ENCODE appends `form(reqlen V, V)`, reqlen V bytes, and answers (OK, reqlen V, 0), for every V; IN and RPOS
are never touched; every word with OP 0x30 is ENCODE; with the rule's corner cases and its example. -/
def Obligations.EncodeAppendsTheMinimalForm : Prop :=
  Spells 0x30#8 (fun cw => .encode (vField cw)) ∧
  (∀ v s, ∃ t, exec (.encode v) s = .next t ∧ Responds s t ⟨.ok, BitVec.ofNat 4 (reqlen v.toNat), 0⟩ ∧
    Appends s t (form (reqlen v.toNat) v.toNat) ∧ (form (reqlen v.toNat) v.toNat).length = reqlen v.toNat ∧
    formDefined (reqlen v.toNat) v.toNat = true ∧ KeepsInput s t ∧ t.rpos = s.rpos ∧ t.ports.rdConsume = 0) ∧
  form (reqlen 0) 0 = [0x00#8] ∧ form (reqlen 127) 127 = [0x7F#8] ∧ form (reqlen 128) 128 = [0x80#8, 0x80#8] ∧
  form (reqlen (2 ^ 56 - 1)) (2 ^ 56 - 1) = 0xFE#8 :: List.replicate 7 0xFF#8 ∧
  form (reqlen (2 ^ 56)) (2 ^ 56) = 0xFF#8 :: (List.replicate 7 0x00#8 ++ [0x01#8]) ∧
  form (reqlen (2 ^ 64 - 1)) (2 ^ 64 - 1) = List.replicate 9 0xFF#8 ∧
  form (reqlen 16384) 16384 = [0xC0#8, 0x00#8, 0x40#8]

/-- R132 and R139: ENCODE is PACK with the required length, in every state. -/
def Obligations.EncodeIsPackOfTheRequiredLength : Prop :=
  ∀ v s, exec (.encode v) s = exec (.pack (BitVec.ofNat 4 (reqlen v.toNat)) v) s

/-- R138: ENCODE writes the head byte 0xFF exactly for the values of 2^56 and above, and never more bytes than any form
of the value needs. -/
def Obligations.EncodeEscapesExactlyLargeValues : Prop :=
  ∀ v s, ∃ t, exec (.encode v) s = .next t ∧ (t.outByte s.out.length = some 0xFF#8 ↔ 2 ^ 56 ≤ v.toNat) ∧
    ∀ n, formDefined n v.toNat = true → t.out.length - s.out.length ≤ n

/-- R135: a successful PACK, and every ENCODE, presents one append, lane i of `wr_bytes` being byte i of the form and
the lanes above it 0; a PACK that answers BADLEN raises no `wr_valid`. -/
def Obligations.AppendsStandOnTheWriterPort : Prop :=
  (∀ n v s t, exec (.pack n v) s = .next t →
    if formDefined n.toNat v.toNat = true then
      t.ports.wrValid = true ∧ t.ports.wrCount = n ∧
        ∀ i, i < 9 → portLane t.ports.wrBytes i = ((form n.toNat v.toNat)[i]?).getD 0
    else t.ports.wrValid = false) ∧
  (∀ v s t, exec (.encode v) s = .next t →
    t.ports.wrValid = true ∧ t.ports.wrCount = BitVec.ofNat 4 (reqlen v.toNat) ∧
      ∀ i, i < 9 → portLane t.ports.wrBytes i = ((form (reqlen v.toNat) v.toNat)[i]?).getD 0)

/-! ### FITCHK and the decode commands -/

/-- R182 and R185 to R188: each FITCHK answers (OK, 0, V) when V is at most the largest value of its width and
(RANGE, 0, 0) otherwise, and touches no space. FITCHK.U64 never answers RANGE. Every word with OP 0x40 to 0x43 is one of
them. -/
def Obligations.FitchkComparesWithTheWidth : Prop :=
  Spells 0x40#8 (fun cw => .fitchkU8 (vField cw)) ∧ Spells 0x41#8 (fun cw => .fitchkU16 (vField cw)) ∧
  Spells 0x42#8 (fun cw => .fitchkU32 (vField cw)) ∧ Spells 0x43#8 (fun cw => .fitchkU64 (vField cw)) ∧
  FitCheckAnswers .fitchkU8 255 ∧ FitCheckAnswers .fitchkU16 65535 ∧ FitCheckAnswers .fitchkU32 4294967295 ∧
    FitCheckAnswers .fitchkU64 18446744073709551615

/-- R181: the fit test is one comparison with the largest value of the width, equivalently the bits of V at and above
the width are all zero; every 64-bit value fits 64 bits. -/
def Obligations.FitsMeansUpperBitsZero : Prop :=
  widthMax .u8 = 255 ∧ widthMax .u16 = 65535 ∧ widthMax .u32 = 4294967295 ∧ widthMax .u64 = 18446744073709551615 ∧
    ∀ w v, v < 2 ^ 64 → (fits w v = true ↔ v ≤ widthMax w) ∧ (fits w v = true ↔ v >>> widthBits w = 0) ∧
      fits .u64 v = true

/-- R152: DECODE on a complete form consumes it and answers (OK, n, v); on an incomplete one it answers TRUNCATED and
changes nothing. -/
def Obligations.DecodeReadsTheFormAtTheCursor : Prop :=
  Spells 0x50#8 (fun _ => .decode) ∧ DecodeCompletes .decode 18446744073709551615 ∧ DecodeTruncates .decode

/-- R164: DECODE.F does the same through its window and its fall-back, and cannot answer TRUNCATED when nine bytes
remain. -/
def Obligations.FastDecodeReadsTheFormAtTheCursor : Prop :=
  Spells 0x58#8 (fun _ => .decodeF) ∧ DecodeCompletes .decodeF 18446744073709551615 ∧ DecodeTruncates .decodeF ∧
    ∀ s, CursorInside s → 9 ≤ s.inp.length - s.rpos →
      ∃ t, exec .decodeF s = .next t ∧ t.ports.rspStatus = statusCode .ok

/-- R183 and R189 to R196: each DECODE_AS consumes a complete form and answers its value, or RANGE with the length
consumed when the value is above the width's largest; on an incomplete form it answers TRUNCATED and changes nothing. -/
def Obligations.NarrowDecodesConsumeThenCheck : Prop :=
  (Spells 0x60#8 (fun _ => .decodeAsU8) ∧ Spells 0x61#8 (fun _ => .decodeAsU16) ∧ Spells 0x62#8 (fun _ => .decodeAsU32) ∧
    Spells 0x63#8 (fun _ => .decodeAsU64) ∧ Spells 0x68#8 (fun _ => .decodeAsU8F) ∧
    Spells 0x69#8 (fun _ => .decodeAsU16F) ∧ Spells 0x6A#8 (fun _ => .decodeAsU32F) ∧
    Spells 0x6B#8 (fun _ => .decodeAsU64F)) ∧
  (DecodeCompletes .decodeAsU8 255 ∧ DecodeTruncates .decodeAsU8) ∧
  (DecodeCompletes .decodeAsU16 65535 ∧ DecodeTruncates .decodeAsU16) ∧
  (DecodeCompletes .decodeAsU32 4294967295 ∧ DecodeTruncates .decodeAsU32) ∧
  (DecodeCompletes .decodeAsU64 18446744073709551615 ∧ DecodeTruncates .decodeAsU64) ∧
  (DecodeCompletes .decodeAsU8F 255 ∧ DecodeTruncates .decodeAsU8F) ∧
  (DecodeCompletes .decodeAsU16F 65535 ∧ DecodeTruncates .decodeAsU16F) ∧
  (DecodeCompletes .decodeAsU32F 4294967295 ∧ DecodeTruncates .decodeAsU32F) ∧
  (DecodeCompletes .decodeAsU64F 18446744073709551615 ∧ DecodeTruncates .decodeAsU64F)

/-- R153: a decode command answers TRUNCATED in the three cases of the rule and in no other. -/
def Obligations.TruncatedExactlyWhenIncomplete : Prop :=
  ∀ i s, IsDecode i → CursorInside s →
    ∃ t, exec i s = .next t ∧ (t.ports.rspStatus = statusCode .truncated ↔ Incomplete s)

/-- R165 and R197: the fast path and the safe path give the same outcome in every state. -/
def Obligations.FastAndSafePathsAgree : Prop :=
  ∀ s, exec .decodeF s = exec .decode s ∧ exec .decodeAsU8F s = exec .decodeAsU8 s ∧
    exec .decodeAsU16F s = exec .decodeAsU16 s ∧ exec .decodeAsU32F s = exec .decodeAsU32 s ∧
    exec .decodeAsU64F s = exec .decodeAsU64 s

/-- R192 and R196: the 64-bit narrowing decodes are DECODE, in every state. -/
def Obligations.NarrowDecodeTo64BitsIsDecode : Prop :=
  ∀ s, exec .decodeAsU64 s = exec .decode s ∧ exec .decodeAsU64F s = exec .decode s

/-- R198: DECODE_AS is DECODE followed by FITCHK of the same width on its value; where DECODE answers TRUNCATED, so does
DECODE_AS, and nothing changes. -/
def Obligations.NarrowDecodeIsDecodeThenFitchk : Prop :=
  ∀ s p, CursorInside s → p ∈ narrowings →
    ∃ t, exec .decode s = .next t ∧
      (t.ports.rspStatus = statusCode .truncated → exec p.1 s = .next t ∧ KeepsSpaces s t) ∧
      (t.ports.rspStatus = statusCode .ok → ∃ u t', exec (p.2.1 t.ports.rspValue) s = .next u ∧
        exec p.1 s = .next t' ∧ t'.inp = t.inp ∧ t'.rpos = t.rpos ∧ t'.out = t.out ∧
        Responds s t' (if u.ports.rspStatus = statusCode .ok then ⟨.ok, t.ports.rspLen, t.ports.rspValue⟩
          else ⟨.range, t.ports.rspLen, 0⟩))

/-- R199: on OK the value of a DECODE_AS of width w has only zeros at and above bit w, so that its low w bits are all of
it. -/
def Obligations.NarrowResultsLeaveUpperBitsZero : Prop :=
  ∀ i w s t, decodeWidth i = some w → exec i s = .next t → t.ports.rspStatus = statusCode .ok →
    t.ports.rspValue.toNat >>> widthBits w = 0 ∧ t.ports.rspValue.toNat % 2 ^ widthBits w = t.ports.rspValue.toNat

/-- R162: a decode command drives on `rd_consume` what it puts in `rsp_len`, and that is how far the cursor moves; on
TRUNCATED it is 0 and the value is 0. -/
def Obligations.DecodesDriveConsumeAndLength : Prop :=
  ∀ i s t, IsDecode i → exec i s = .next t → t.ports.rdConsume = t.ports.rspLen ∧
    t.rpos = s.rpos + t.ports.rdConsume.toNat ∧
    (t.ports.rspStatus = statusCode .truncated → t.ports.rdConsume = 0 ∧ t.ports.rspValue = 0)

/-- A decode command with the cursor outside 0..IN_LEN is refused by name (R33, R218; 93 U9). -/
def Obligations.DecodeOutsideInputIsRefused : Prop :=
  ∀ i s, IsDecode i → ¬CursorInside s → exec i s = .refused .cursorOutsideInput

/-! ### The wire format -/

/-- R102 to R105, bit by bit: of a short form of length n the head byte's bits from 9-n up are 1, bit 8-n is 0, and the
bits below are the payload bits from `8*(n-1)` on; the head byte of the escape form is 0xFF; tail byte i holds value
bits `8*(i-1)` to `8*i-1`. With the marker and the mask of each length. -/
def Obligations.FormBitsAreAsLaidOut : Prop :=
  (∀ n v j, 1 ≤ n → n ≤ 8 → j < 8 → v < 2 ^ (7 * n) → ∃ b0, (form n v)[0]? = some b0 ∧ b0.getLsbD j =
    (if 9 - n ≤ j then true else if j = 8 - n then false else v.testBit (8 * (n - 1) + j))) ∧
  (∀ v, v < 2 ^ 64 → (form 9 v)[0]? = some 0xFF#8) ∧
  (∀ n v i j, n ≤ 9 → 1 ≤ i → i < n → j < 8 →
    ∃ b, (form n v)[i]? = some b ∧ b.getLsbD j = v.testBit (8 * (i - 1) + j)) ∧
  (List.range' 1 8).map marker = [0x00, 0x80, 0xC0, 0xE0, 0xF0, 0xF8, 0xFC, 0xFE] ∧
  (List.range' 1 8).map pmask = [0x7F, 0x3F, 0x1F, 0x0F, 0x07, 0x03, 0x01, 0x00]

/-- R106: `hlen` is 9 for 0xFF and otherwise the leading ones plus one, in both cases `clo8 + 1`; it is 1 to 9, and the
ranges of the table partition all 256 bytes. -/
def Obligations.HeadBytesPartitionByLength : Prop :=
  ∀ b : Byte, hlen b = (if b = 0xFF#8 then 9 else clo8 b + 1) ∧ hlen b = clo8 b + 1 ∧ 1 ≤ hlen b ∧ hlen b ≤ 9 ∧
    hlen b = (if b.toNat ≤ 0x7F then 1 else if b.toNat ≤ 0xBF then 2 else if b.toNat ≤ 0xDF then 3
      else if b.toNat ≤ 0xEF then 4 else if b.toNat ≤ 0xF7 then 5 else if b.toNat ≤ 0xFB then 6
      else if b.toNat ≤ 0xFD then 7 else if b.toNat ≤ 0xFE then 8 else 9)

/-- R109: decoding inverts forming, on the whole domain of `form`, and for a fixed length `form` is injective. -/
def Obligations.DecodingInvertsForming : Prop :=
  (∀ n v, formDefined n v = true → (form n v).length = n ∧ ∃ b0 tail, form n v = b0 :: tail ∧ hlen b0 = n ∧
    formval b0 tail = v) ∧
  ∀ n v v', formDefined n v = true → formDefined n v' = true → form n v = form n v' → v = v'

/-- R108 and R157, the other direction: what `dec` returns lies in the domain of `form`, its bytes are the form of its
value, and its length is at least the required one, with equality exactly when the bytes are the minimal form. -/
def Obligations.DecodedBytesAreTheFormOfTheirValue : Prop :=
  ∀ inp rpos n v, dec inp rpos = some (n, v) → 1 ≤ n ∧ n ≤ 9 ∧ v < 2 ^ 64 ∧ (n ≤ 8 → v < 2 ^ (7 * n)) ∧
    (inp.drop rpos).take n = form n v ∧ reqlen v ≤ n ∧
    (reqlen v = n ↔ (inp.drop rpos).take n = form (reqlen v) v)

/-- R110, R111 and R158: every structurally valid form is accepted wherever it stands, minimal or not, and bytes before
and after it do not matter. -/
def Obligations.EveryFormIsAcceptedAnywhere : Prop :=
  ∀ n v s pre post, formDefined n v = true → s.inp = pre ++ form n v ++ post → s.rpos = pre.length →
    ∃ t, exec .decode s = .next t ∧ Responds s t ⟨.ok, BitVec.ofNat 4 n, BitVec.ofNat 64 v⟩ ∧ t.rpos = s.rpos + n ∧
      KeepsInput s t ∧ KeepsOutput s t

/-! ### Round trips -/

/-- R140 and R17: after ENCODE v the last reqlen v bytes of OUT are the minimal form of v, and a decode at the index
where they start, on either path, answers (OK, reqlen v, v) and leaves the cursor at the end. -/
def Obligations.EncodeThenDecodeIsTheIdentity : Prop :=
  ∀ v s, ∃ t, exec (.encode v) s = .next t ∧ Appends s t (form (reqlen v.toNat) v.toNat) ∧
    DecodesAtEnd .decode t s.out.length (reqlen v.toNat) ⟨.ok, BitVec.ofNat 4 (reqlen v.toNat), v⟩ ∧
    DecodesAtEnd .decodeF t s.out.length (reqlen v.toNat) ⟨.ok, BitVec.ofNat 4 (reqlen v.toNat), v⟩

/-- R133: a length longer than the required one is accepted, and the form decodes back to the value on both paths. -/
def Obligations.PackedFormsDecodeBack : Prop :=
  ∀ (n : BitVec 4) (v : Value) s, reqlen v.toNat ≤ n.toNat → n.toNat ≤ 9 →
    ∃ t, exec (.pack n v) s = .next t ∧ Responds s t ⟨.ok, n, 0⟩ ∧
      DecodesAtEnd .decode t s.out.length n.toNat ⟨.ok, n, v⟩ ∧
      DecodesAtEnd .decodeF t s.out.length n.toNat ⟨.ok, n, v⟩

/-- R200: ENCODE v and then DECODE_AS at a width answers (OK, reqlen v, v) when v fits and (RANGE, reqlen v, 0) when it
does not. -/
def Obligations.EncodeThenNarrowDecode : Prop :=
  ∀ v s p, p ∈ narrowings → ∃ t, exec (.encode v) s = .next t ∧
    DecodesAtEnd p.1 t s.out.length (reqlen v.toNat)
      (if v.toNat ≤ p.2.2 then ⟨.ok, BitVec.ofNat 4 (reqlen v.toNat), v⟩
        else ⟨.range, BitVec.ofNat 4 (reqlen v.toNat), 0⟩)

/-- R160: a stream of back-to-back forms made by the encoder is decoded by as many DECODE commands as it has values, in
order, and nothing remains; one more DECODE answers TRUNCATED. -/
def Obligations.StreamsDecodeToTheirValues : Prop :=
  ∀ (vs : List Value) s, s.rpos ≤ s.inp.length →
    s.inp.drop s.rpos = vs.flatMap (fun v => form (reqlen v.toNat) v.toNat) →
    ∃ t, repeatExec .decode vs.length s = .next t ∧
      t.responses = s.responses ++ vs.map (fun v => ⟨.ok, BitVec.ofNat 4 (reqlen v.toNat), v⟩) ∧
      t.rpos = t.inp.length ∧ KeepsInput s t ∧ KeepsOutput s t ∧ FailsInPlace .decode t .truncated

/-! ### Invariants and whole-machine rules -/

/-- Every step keeps the invariant: the cursor inside the input (R34), responses and ports within what the spec allows
(R28, R30, R210), `cmd_ready` 0 exactly while a command is in flight (R246), and that only for the Writer (R51). -/
def Obligations.StepKeepsTheInvariant : Prop := ∀ s t, s.Inv → step s = .next t → t.Inv

/-- The state after reset meets the invariant (R32). -/
def Obligations.ResetMeetsTheInvariant : Prop := State.reset.Inv

/-- From a state that meets the invariant a step never stops, unless the host sets the cursor outside the input (R10,
R219, R245). -/
def Obligations.StepsStopOnlyAtABadDirective : Prop :=
  ∀ s, s.Inv → (∀ k rest, s.schedule = .setRpos k :: rest → k ≤ s.inp.length) → ∃ t, step s = .next t

/-- R34: a command keeps `0 <= RPOS <= IN_LEN`, leaves IN and the first OUT_LEN bytes of OUT as they are, and the cursor
does not wrap in AW bits. -/
def Obligations.CommandsKeepCursorInputAndOldOutput : Prop :=
  ∀ i s t, CursorInside s → exec i s = .next t → CursorInside t ∧ KeepsInput s t ∧
    (∀ a, a < s.out.length → t.outByte a = s.outByte a) ∧ (InputWithinAW s → t.rpos < 2 ^ Config.addrWidth)

/-- R24 and R25: only the decode commands move the cursor, and only forward; only PACK and ENCODE change OUT, and OUT
never gets shorter. -/
def Obligations.OnlyDecodesMoveTheCursorOnlyEncodersAppend : Prop :=
  ∀ i s t, exec i s = .next t → s.rpos ≤ t.rpos ∧ (¬IsDecode i → t.rpos = s.rpos) ∧ s.out.length ≤ t.out.length ∧
    ((∀ n v, i ≠ .pack n v) → (∀ v, i ≠ .encode v) → KeepsOutput s t)

/-- The meaning of a command is total: with the cursor inside the input every instruction answers a next state, and a
command that is no decode answers one in every state (R10). -/
def Obligations.EveryCommandAnswers : Prop :=
  ∀ i s, (CursorInside s ∨ ¬IsDecode i) → ∃ t r, exec i s = .next t ∧ Responds s t r

/-- R210: the codes of the five statuses, and the statuses each instruction may answer. -/
def Obligations.StatusCodesAndWhoAnswersThem : Prop :=
  statusCode .ok = 0 ∧ statusCode .truncated = 1 ∧ statusCode .range = 2 ∧ statusCode .badlen = 3 ∧
    statusCode .illegal = 4 ∧
    ∀ i s t, exec i s = .next t → ∃ st ∈ allowedStatuses i, t.ports.rspStatus = statusCode st

/-- R216: a command that answers no OK answers value 0 and in `len` how far the cursor moved; it changes neither space,
and moves the cursor only when it is a DECODE_AS that answers RANGE. -/
def Obligations.FailedCommandsLeaveTheSpacesAlone : Prop :=
  ∀ i s t, exec i s = .next t → t.ports.rspStatus ≠ statusCode .ok →
    t.ports.rspValue = 0 ∧ t.rpos = s.rpos + t.ports.rspLen.toNat ∧ KeepsInput s t ∧ KeepsOutput s t ∧
      t.ports.wrValid = false ∧
      (t.rpos ≠ s.rpos → t.ports.rspStatus = statusCode .range ∧ (decodeWidth i).isSome = true)

/-- R19, R31 and R217: what a command answers and does depends on IN and RPOS alone: two states that agree there get the
same ports, the same response, the same advance and the same bytes appended, whatever came before. -/
def Obligations.CommandsDependOnInputAndCursorOnly : Prop :=
  ∀ i s s' t, s'.inp = s.inp → s'.rpos = s.rpos → exec i s = .next t →
    ∃ t' r bytes, exec i s' = .next t' ∧ t'.ports = t.ports ∧ t'.rpos = t.rpos ∧ t.responses = s.responses ++ [r] ∧
      t'.responses = s'.responses ++ [r] ∧ t.out = s.out ++ bytes ∧ t'.out = s'.out ++ bytes

/-! ### Footprints and the Reader's port -/

/-- R48: a safe-path decode samples no lane when nothing remains, the head byte alone when the form is incomplete, and
exactly the bytes of the form when it is whole; the footprint is the same bytes as indices of IN. -/
def Obligations.SafePathSamplesTheFormOnly : Prop :=
  ∀ i s, i ∈ safeDecodes →
    (s.inp.length - s.rpos = 0 → sampledLanes i s = [] ∧ footprint i s = []) ∧
    ∀ b0, s.inByte s.rpos = some b0 →
      (s.inp.length - s.rpos < hlen b0 → sampledLanes i s = [0] ∧ footprint i s = [s.rpos]) ∧
      (hlen b0 ≤ s.inp.length - s.rpos →
        sampledLanes i s = List.range (hlen b0) ∧ footprint i s = List.range' s.rpos (hlen b0))

/-- R49: the fast path samples nine bytes when nine remain; it samples a lane that holds no byte of the input only under
a Reader that documents safe over-read, and otherwise has the footprint of the safe path. -/
def Obligations.FastPathSamplesTheWindow : Prop :=
  ∀ i s, decodePath i = some .fast →
    (9 ≤ s.inp.length - s.rpos → sampledLanes i s = List.range 9 ∧ footprint i s = List.range' s.rpos 9) ∧
    (s.inp.length - s.rpos < 9 → Config.overreadSafe = true ∨ footprint i s = footprint .decode s) ∧
    ∀ l ∈ sampledLanes i s, l < s.inp.length - s.rpos ∨ (Config.overreadSafe = true ∧ l < 9)

/-- R46, R48, R49 and R52, lane by lane: a safe-path decode samples only lanes that hold a byte of the input; a fast-path
decode samples at most the nine lanes, and one without a byte of the input only under a Reader that documents safe
over-read; every other command samples nothing. So every index of IN a command reads lies from RPOS to IN_LEN-1. -/
def Obligations.FootprintsStayInsideTheInput : Prop :=
  ∀ s, (∀ i ∈ safeDecodes, ∀ l ∈ sampledLanes i s, l < s.inp.length - s.rpos ∧ l < 9) ∧
    (∀ i ∈ fastDecodes, ∀ l ∈ sampledLanes i s, (l < s.inp.length - s.rpos ∨ Config.overreadSafe = true) ∧ l < 9) ∧
    (∀ n v, sampledLanes (.reqlen v) s = [] ∧ sampledLanes (.pack n v) s = [] ∧ sampledLanes (.encode v) s = [] ∧
      sampledLanes (.fitchkU8 v) s = [] ∧ sampledLanes (.fitchkU16 v) s = [] ∧ sampledLanes (.fitchkU32 v) s = [] ∧
      sampledLanes (.fitchkU64 v) s = []) ∧
    ∀ i, ∀ a ∈ footprint i s, s.rpos ≤ a ∧ a < s.inp.length ∧ a - s.rpos ∈ sampledLanes i s

/-- R155: a decode command depends on the bytes of the safe footprint alone: an input of the same length that agrees
there, with the same cursor, gets the same response and the same advance. -/
def Obligations.DecodesDependOnTheirFootprintOnly : Prop :=
  ∀ i s s', IsDecode i → s'.rpos = s.rpos → s'.inp.length = s.inp.length →
    (∀ a ∈ footprint .decode s, s'.inByte a = s.inByte a) → ∀ t, exec i s = .next t →
    ∃ t' r, exec i s' = .next t' ∧ t'.ports = t.ports ∧ t'.rpos = t.rpos ∧ t.responses = s.responses ++ [r] ∧
      t'.responses = s'.responses ++ [r]

/-- R30, R166 and R167: the decoder over `rd_window` and `rd_remaining` computes `dec`, whatever the padding lanes
hold. -/
def Obligations.WindowDecoderIgnoresPadding : Prop :=
  ∀ pad inp rpos, decPorts (inp.length - rpos) (windowWith pad inp rpos) = dec inp rpos

/-- R30: lane i of `rd_window` holds byte RPOS+i of IN while that byte remains. -/
def Obligations.WindowLanesHoldTheNextBytes : Prop :=
  ∀ s i, i < 9 → i < s.inp.length - s.rpos → some (portLane (rdWindow s) i) = s.inByte (s.rpos + i)

/-- R29 and R34: `rd_remaining` is `IN_LEN - RPOS`, which fits AW bits when IN is as short as R23 says. -/
def Obligations.RemainingPortDoesNotWrap : Prop :=
  ∀ s, InputWithinAW s → (rdRemaining s).toNat = s.inp.length - s.rpos
end

