-- ==== Sys2Proof/Laws/Format.lean ====
section
/-! SUPPORT. One lemma per function of the wire format: little-endian values, the required length by its thresholds, the
head byte, the tail, and the two directions between a form and its value. -/

namespace Sys2Proof.Laws

open Sys2Proof.Machine

/-! ### Little-endian values -/

@[simp] theorem le_nil : le [] = 0 := rfl

@[simp] theorem le_cons (b : Byte) (bs : List Byte) : le (b :: bs) = b.toNat + 256 * le bs := rfl

theorem le_append (as bs : List Byte) : le (as ++ bs) = le as + 2 ^ (8 * as.length) * le bs := by
  induction as with
  | nil => simp
  | cons a as ih =>
    simp only [List.cons_append, le_cons, ih, List.length_cons]
    have : 2 ^ (8 * (as.length + 1)) = 256 * 2 ^ (8 * as.length) := by
      rw [Nat.mul_add, Nat.pow_add]; omega
    rw [this]; ring

theorem le_lt (bs : List Byte) : le bs < 2 ^ (8 * bs.length) := by
  induction bs with
  | nil => simp
  | cons b bs ih =>
    have hb := b.isLt
    have : 2 ^ (8 * (bs.length + 1)) = 256 * 2 ^ (8 * bs.length) := by
      rw [Nat.mul_add, Nat.pow_add]; omega
    simp only [le_cons, List.length_cons, this]
    omega

/-- A run of bytes is determined by its length and its little-endian value. -/
theorem le_injective : ∀ {as bs : List Byte}, as.length = bs.length → le as = le bs → as = bs
  | [], [], _, _ => rfl
  | a :: as, b :: bs, hlen, hle => by
    have ha := a.isLt
    have hb := b.isLt
    simp only [le_cons] at hle
    have hhead : a.toNat = b.toNat := by omega
    have htail : le as = le bs := by omega
    rw [BitVec.eq_of_toNat_eq hhead, le_injective (by simpa using hlen) htail]

/-! ### Bit lengths and the required length -/

theorem bitlen_le_iff (v k : Nat) : bitlen v ≤ k ↔ v < 2 ^ k := by
  unfold bitlen
  split
  · subst v; simp
  · rename_i h
    rw [Nat.succ_le_iff, Nat.log2_lt h]

/-- The required length by its thresholds. -/
theorem reqlen_eq (v : Nat) : reqlen v =
    if v < 2 ^ 7 then 1 else if v < 2 ^ 14 then 2 else if v < 2 ^ 21 then 3 else if v < 2 ^ 28 then 4
    else if v < 2 ^ 35 then 5 else if v < 2 ^ 42 then 6 else if v < 2 ^ 49 then 7 else if v < 2 ^ 56 then 8 else 9 := by
  have fit (n : Nat) (hn : 1 ≤ n) : (max 1 (bitlen v) ≤ 7 * n) ↔ v < 2 ^ (7 * n) := by
    rw [Nat.max_le, bitlen_le_iff]; omega
  have find (p : Nat → Bool) (a : Nat) (l : List Nat) :
      (a :: l).find? p = if p a = true then some a else l.find? p := by
    cases h : p a <;> simp [h]
  have pick (c : Prop) [Decidable c] (a b : Option Nat) (d : Nat) :
      (if c then a else b).getD d = if c then a.getD d else b.getD d := by split <;> rfl
  simp only [reqlen, List.range'_succ, List.range'_zero, find, pick, Config.payloadBitsPerByte, decide_eq_true_eq,
    Nat.reduceAdd, fit 1, fit 2, fit 3, fit 4, fit 5, fit 6, fit 7, fit 8, Nat.le_refl, Nat.one_le_ofNat, Nat.reduceMul,
    List.find?_nil, Option.getD_some, Option.getD_none, Config.escapeLen]

theorem reqlen_pos (v : Nat) : 1 ≤ reqlen v := by rw [reqlen_eq]; (repeat' split) <;> omega

theorem reqlen_le_nine (v : Nat) : reqlen v ≤ 9 := by rw [reqlen_eq]; (repeat' split) <;> omega

/-- The required length is at most a short length exactly when the value fits that length (41_length.md R120, R123). -/
theorem reqlen_le_iff {v n : Nat} (h1 : 1 ≤ n) (h8 : n ≤ 8) : reqlen v ≤ n ↔ v < 2 ^ (7 * n) := by
  have : n = 1 ∨ n = 2 ∨ n = 3 ∨ n = 4 ∨ n = 5 ∨ n = 6 ∨ n = 7 ∨ n = 8 := by omega
  rw [reqlen_eq]
  rcases this with rfl | rfl | rfl | rfl | rfl | rfl | rfl | rfl <;> (repeat' split) <;> omega

/-- The required length by the bit length (41_length.md R122). -/
theorem reqlen_le_iff_bitlen {v n : Nat} (h1 : 1 ≤ n) (h8 : n ≤ 8) : reqlen v ≤ n ↔ bitlen v ≤ 7 * n := by
  rw [reqlen_le_iff h1 h8, bitlen_le_iff]

/-! ### The domain of a form -/

theorem formDefined_iff (n v : Nat) :
    formDefined n v = true ↔ (1 ≤ n ∧ n ≤ 8 ∧ v < 2 ^ (7 * n)) ∨ (n = 9 ∧ v < 2 ^ 64) := by
  simp only [formDefined, Bool.or_eq_true, Bool.and_eq_true, decide_eq_true_eq, beq_iff_eq, and_assoc]

theorem formDefined_reqlen {v : Nat} (hv : v < 2 ^ 64) : formDefined (reqlen v) v = true := by
  rw [formDefined_iff, reqlen_eq]
  (repeat' split) <;> simp <;> omega

/-! ### The head byte -/

/-- What the head byte of a short form says, for every length and every payload: its length and its payload bits. -/
theorem head_of_payload : ∀ n ∈ List.range' 1 8, ∀ p : Byte, p.toNat < 2 ^ (8 - n) →
    hlen (BitVec.ofNat 8 (marker n ||| p.toNat)) = n ∧
      (BitVec.ofNat 8 (marker n ||| p.toNat)).toNat &&& pmask n = p.toNat := by
  decide

theorem and_pmask (x n : Nat) : x &&& pmask n = x % 2 ^ (8 - n) := Nat.and_two_pow_sub_one_eq_mod x (8 - n)

theorem headByte_short {n : Nat} (v : Nat) (h1 : 1 ≤ n) (h8 : n ≤ 8) :
    hlen (headByte n v) = n ∧ (headByte n v).toNat &&& pmask n = v / 2 ^ (8 * (n - 1)) % 2 ^ (8 - n) := by
  have hp : v / 2 ^ (8 * (n - 1)) % 2 ^ (8 - n) < 2 ^ (8 - n) := Nat.mod_lt _ (Nat.two_pow_pos _)
  have hle : 2 ^ (8 - n) ≤ 2 ^ 8 := Nat.pow_le_pow_right (by omega) (by omega)
  have ht : (BitVec.ofNat 8 (v / 2 ^ (8 * (n - 1)) % 2 ^ (8 - n))).toNat = v / 2 ^ (8 * (n - 1)) % 2 ^ (8 - n) := by
    rw [BitVec.toNat_ofNat, Nat.mod_eq_of_lt (by omega)]
  have h := head_of_payload n (by simp; omega) (BitVec.ofNat 8 (v / 2 ^ (8 * (n - 1)) % 2 ^ (8 - n))) (by rwa [ht])
  rw [ht] at h
  have hb : headByte n v = BitVec.ofNat 8 (marker n ||| (v / 2 ^ (8 * (n - 1)) % 2 ^ (8 - n))) := by
    unfold headByte
    rw [if_neg (by simp [Config.escapeLen]; omega), and_pmask, Nat.shiftRight_eq_div_pow]
  rw [hb]; exact h

theorem headByte_escape (v : Nat) : headByte 9 v = 0xFF#8 := rfl

/-- A head byte says the length its form was made with. -/
theorem hlen_headByte {n : Nat} (v : Nat) (h1 : 1 ≤ n) (h9 : n ≤ 9) : hlen (headByte n v) = n := by
  rcases Nat.lt_or_ge n 9 with h | h
  · exact (headByte_short v h1 (by omega)).1
  · obtain rfl : n = 9 := by omega
    rfl

theorem hlen_range : ∀ b : Byte, 1 ≤ hlen b ∧ hlen b ≤ 9 := by decide

/-- The head byte of a short form is its marker and its payload. -/
theorem headByte_of_hlen : ∀ b : Byte, hlen b ≤ 8 → BitVec.ofNat 8 (marker (hlen b) ||| (b.toNat &&& pmask (hlen b))) = b := by
  decide

theorem hlen_eq_nine : ∀ b : Byte, hlen b = 9 → b = 0xFF#8 := by decide

/-! ### The tail -/

theorem tailByte_toNat (v i : Nat) : (tailByte v i).toNat = v / 2 ^ (8 * (i - 1)) % 256 := by
  have h : (255 : Nat) = 2 ^ 8 - 1 := rfl
  simp only [tailByte, h, Nat.and_two_pow_sub_one_eq_mod, Nat.shiftRight_eq_div_pow, BitVec.toNat_ofNat]
  omega

/-- The tail bytes from number `i + 1` on are the little-endian bytes of `v >> 8*i`. -/
theorem le_tailBytes (v : Nat) : ∀ k i, le ((List.range' (i + 1) k).map (tailByte v)) = v / 2 ^ (8 * i) % 2 ^ (8 * k)
  | 0, i => by simp [Nat.mod_one]
  | k + 1, i => by
    have step : v / 2 ^ (8 * (i + 1)) = v / 2 ^ (8 * i) / 256 := by
      rw [Nat.div_div_eq_div_mul, show 8 * (i + 1) = 8 * i + 8 by ring, Nat.pow_add]
    have pow : 2 ^ (8 * (k + 1)) = 256 * 2 ^ (8 * k) := by
      rw [show 8 * (k + 1) = 8 + 8 * k by ring, Nat.pow_add]
    rw [List.range'_succ, List.map_cons, le_cons, le_tailBytes v k (i + 1), tailByte_toNat, step, pow,
      Nat.mod_mul, Nat.add_sub_cancel]

theorem le_tail (n v : Nat) : le ((List.range' 1 (n - 1)).map (tailByte v)) = v % 2 ^ (8 * (n - 1)) := by
  simpa using le_tailBytes v (n - 1) 0

/-! ### Forms and their values -/

@[simp] theorem form_ne_nil (n v : Nat) : form n v ≠ [] := by simp [form]

theorem form_length {n : Nat} (v : Nat) (h : 1 ≤ n) : (form n v).length = n := by simp [form]; omega

theorem or_shift (a b k : Nat) (h : b < 2 ^ k) : (a <<< k) ||| b = a * 2 ^ k + b := by
  rw [Nat.shiftLeft_eq, Nat.mul_comm, ← Nat.two_pow_add_eq_or_of_lt h]

/-- `formval` with its OR written as a sum: the two operands never overlap. -/
theorem formval_eq (b0 : Byte) (tail : List Byte) : formval b0 tail =
    if tail.length = 8 then le tail
    else (b0.toNat &&& pmask (tail.length + 1)) * 2 ^ (8 * tail.length) + le tail := by
  simp only [formval, Config.escapeLen, Nat.add_sub_cancel, Nat.reduceEqDiff, or_shift _ _ _ (le_lt tail)]

/-- The value of a form is the value it was made from. -/
theorem formval_form {n v : Nat} (h : formDefined n v = true) :
    formval (headByte n v) ((List.range' 1 (n - 1)).map (tailByte v)) = v := by
  rw [formDefined_iff] at h
  rw [formval_eq, le_tail, List.length_map, List.length_range']
  rcases h with ⟨h1, h8, hv⟩ | ⟨rfl, hv⟩
  · have hd : v / 2 ^ (8 * (n - 1)) < 2 ^ (8 - n) := by
      rw [Nat.div_lt_iff_lt_mul (Nat.two_pow_pos _), ← Nat.pow_add]
      rwa [show 8 - n + 8 * (n - 1) = 7 * n by omega]
    rw [if_neg (by omega), show n - 1 + 1 = n by omega, (headByte_short v h1 h8).2, Nat.mod_eq_of_lt hd]
    exact Nat.div_add_mod' v _
  · simpa using Nat.mod_eq_of_lt hv

/-- A form of n bytes holds a value its length can carry. -/
theorem formDefined_formval {b0 : Byte} {tail : List Byte} (h : hlen b0 = tail.length + 1) :
    formDefined (hlen b0) (formval b0 tail) = true := by
  have hr := hlen_range b0
  have hle := le_lt tail
  rw [formDefined_iff, formval_eq, and_pmask, ← h]
  rcases Nat.lt_or_ge (hlen b0) 9 with h9 | h9
  · left
    refine ⟨hr.1, by omega, ?_⟩
    rw [if_neg (by omega)]
    have hm := Nat.mod_lt b0.toNat (Nat.two_pow_pos (8 - hlen b0))
    have hp : 2 ^ (7 * hlen b0) = 2 ^ (8 - hlen b0) * 2 ^ (8 * tail.length) := by
      rw [← Nat.pow_add]; congr 1; omega
    rw [hp]
    calc _ < b0.toNat % 2 ^ (8 - hlen b0) * 2 ^ (8 * tail.length) + 2 ^ (8 * tail.length) := by omega
      _ = (b0.toNat % 2 ^ (8 - hlen b0) + 1) * 2 ^ (8 * tail.length) := by ring
      _ ≤ _ := Nat.mul_le_mul_right _ hm
  · right
    refine ⟨by omega, ?_⟩
    rw [if_pos (by omega)]
    rwa [show tail.length = 8 by omega] at hle

/-- The bytes of a form are the form of its value. -/
theorem form_formval {b0 : Byte} {tail : List Byte} (h : hlen b0 = tail.length + 1) :
    form (hlen b0) (formval b0 tail) = b0 :: tail := by
  have hr := hlen_range b0
  have hle := le_lt tail
  have htail : (List.range' 1 (hlen b0 - 1)).map (tailByte (formval b0 tail)) = tail := by
    apply le_injective
    · simp; omega
    · rw [le_tail, formval_eq, show hlen b0 - 1 = tail.length by omega]
      split
      · exact Nat.mod_eq_of_lt hle
      · rw [Nat.mul_comm, Nat.mul_add_mod, Nat.mod_eq_of_lt hle]
  have hhead : headByte (hlen b0) (formval b0 tail) = b0 := by
    rcases Nat.lt_or_ge (hlen b0) 9 with h9 | h9
    · have e := headByte_of_hlen b0 (by omega)
      unfold headByte
      rw [if_neg (by simp [Config.escapeLen]; omega), Nat.shiftRight_eq_div_pow]
      have hdiv : formval b0 tail / 2 ^ (8 * (hlen b0 - 1)) = b0.toNat &&& pmask (hlen b0) := by
        rw [formval_eq, if_neg (by omega), ← h, show hlen b0 - 1 = tail.length by omega, Nat.mul_comm,
          Nat.mul_add_div (Nat.two_pow_pos _), Nat.div_eq_of_lt hle, Nat.add_zero]
      rw [hdiv, Nat.and_assoc, Nat.and_self]
      exact e
    · have h9' : hlen b0 = 9 := by omega
      rw [h9', headByte_escape, hlen_eq_nine b0 h9']
  rw [form, htail, hhead]

/-- A length that can carry a value is at least the required one. -/
theorem reqlen_le_of_formDefined {n v : Nat} (h : formDefined n v = true) : reqlen v ≤ n := by
  rw [formDefined_iff] at h
  rcases h with ⟨h1, h8, hv⟩ | ⟨rfl, -⟩
  · exact (reqlen_le_iff h1 h8).2 hv
  · exact reqlen_le_nine v

/-! ### The form at the cursor -/

@[simp] theorem length_view (inp : List Byte) (rpos : Nat) : (view inp rpos).length = inp.length - rpos := by simp [view]

/-- `dec` finds the form at the cursor wherever one stands. -/
theorem dec_of_view {inp : List Byte} {rpos n v : Nat} {post : List Byte} (h : formDefined n v = true)
    (hv : view inp rpos = form n v ++ post) : dec inp rpos = some (n, v) := by
  have hn : 1 ≤ n ∧ n ≤ 9 := by rw [formDefined_iff] at h; omega
  have hl := hlen_headByte v hn.1 hn.2
  have hval := formval_form h
  simp only [form, List.cons_append] at hv
  have htake : (((List.range' 1 (n - 1)).map (tailByte v)) ++ post).take (n - 1) =
      (List.range' 1 (n - 1)).map (tailByte v) := by simp
  simp only [dec, hv, hl, htake, hval]
  rw [if_neg (by simp; omega)]

/-- A form `dec` finds: its bytes are there, and they are the form of its value. -/
theorem dec_some {inp : List Byte} {rpos n v : Nat} (h : dec inp rpos = some (n, v)) :
    formDefined n v = true ∧ n ≤ inp.length - rpos ∧ (view inp rpos).take n = form n v := by
  have hl := length_view inp rpos
  unfold dec at h
  split at h
  · cases h
  · rename_i b0 rest hv
    split at h
    · cases h
    · rename_i hn
      simp only [Option.some.injEq, Prod.mk.injEq] at h
      obtain ⟨rfl, rfl⟩ := h
      have hr := hlen_range b0
      rw [hv, List.length_cons] at hl
      have ht : hlen b0 = (rest.take (hlen b0 - 1)).length + 1 := by simp; omega
      refine ⟨formDefined_formval ht, by omega, ?_⟩
      rw [form_formval ht, hv, show hlen b0 = hlen b0 - 1 + 1 by omega, List.take_succ_cons, Nat.add_sub_cancel]

/-- `dec` answers `Trunc` exactly when nothing remains or the head byte asks for more than remains. -/
theorem dec_none_iff {inp : List Byte} {rpos : Nat} : dec inp rpos = none ↔
    inp[rpos]? = none ∨ ∃ b0, inp[rpos]? = some b0 ∧ inp.length - rpos < hlen b0 := by
  have hl := length_view inp rpos
  have hh : inp[rpos]? = (view inp rpos).head? := by simp [view, List.head?_drop]
  unfold dec
  split
  · rename_i hv; simp [hh, hv]
  · rename_i b0 rest hv
    rw [hv, List.length_cons] at hl
    rw [hh, hv, ← hl]
    simp

/-- What `dec` returns, from the head byte. -/
theorem dec_of_head {inp : List Byte} {rpos : Nat} {b0 : Byte} (hb : inp[rpos]? = some b0)
    (h : hlen b0 ≤ inp.length - rpos) :
    dec inp rpos = some (hlen b0, formval b0 ((inp.drop (rpos + 1)).take (hlen b0 - 1))) := by
  obtain ⟨hlt, hget⟩ := List.getElem?_eq_some_iff.mp hb
  have hv : view inp rpos = b0 :: inp.drop (rpos + 1) := by
    rw [view, List.drop_eq_getElem_cons hlt, hget]
  simp only [dec, hv]
  rw [if_neg (by simp; omega)]

end Sys2Proof.Laws
end

