-- ==== Sys2Proof/Laws/State.lean ====
section
/-! SUPPORT. One lemma per field per update of the state, so that no proof unfolds a record update; and what the memory
operations keep: a space is a list of bytes, its own canonical form, and its (address, byte) view lists every index
below the length exactly once, in rising order (log entry 5). -/

namespace Sys2Proof.Laws

open Sys2Proof.Machine

/-! ### `deliver`: the end of a command -/

@[simp] theorem State.deliver_inp (s : State) (k : Nat) (bs : List Byte) (r : Response) : (s.deliver k bs r).inp = s.inp := rfl

@[simp] theorem State.deliver_rpos (s : State) (k : Nat) (bs : List Byte) (r : Response) : (s.deliver k bs r).rpos = s.rpos := rfl

@[simp] theorem State.deliver_out (s : State) (k : Nat) (bs : List Byte) (r : Response) : (s.deliver k bs r).out = s.out := rfl

@[simp] theorem State.deliver_inFlight (s : State) (k : Nat) (bs : List Byte) (r : Response) : (s.deliver k bs r).inFlight = none := rfl

@[simp] theorem State.deliver_ports (s : State) (k : Nat) (bs : List Byte) (r : Response) : (s.deliver k bs r).ports = Ports.drive k bs r := rfl

@[simp] theorem State.deliver_wrReady (s : State) (k : Nat) (bs : List Byte) (r : Response) : (s.deliver k bs r).wrReady = s.wrReady := rfl

@[simp] theorem State.deliver_schedule (s : State) (k : Nat) (bs : List Byte) (r : Response) : (s.deliver k bs r).schedule = s.schedule := rfl

@[simp] theorem State.deliver_responses (s : State) (k : Nat) (bs : List Byte) (r : Response) : (s.deliver k bs r).responses = s.responses ++ [r] := rfl

/-! ### `respond`: an OK response -/

@[simp] theorem State.respond_inp (s : State) (k : Nat) (bs : List Byte) (len v : Nat) : (s.respond k bs len v).inp = s.inp := rfl

@[simp] theorem State.respond_rpos (s : State) (k : Nat) (bs : List Byte) (len v : Nat) : (s.respond k bs len v).rpos = s.rpos := rfl

@[simp] theorem State.respond_out (s : State) (k : Nat) (bs : List Byte) (len v : Nat) : (s.respond k bs len v).out = s.out := rfl

@[simp] theorem State.respond_inFlight (s : State) (k : Nat) (bs : List Byte) (len v : Nat) : (s.respond k bs len v).inFlight = none := rfl

@[simp] theorem State.respond_ports (s : State) (k : Nat) (bs : List Byte) (len v : Nat) : (s.respond k bs len v).ports = Ports.drive k bs ⟨.ok, BitVec.ofNat 4 len, BitVec.ofNat 64 v⟩ := rfl

@[simp] theorem State.respond_wrReady (s : State) (k : Nat) (bs : List Byte) (len v : Nat) : (s.respond k bs len v).wrReady = s.wrReady := rfl

@[simp] theorem State.respond_schedule (s : State) (k : Nat) (bs : List Byte) (len v : Nat) : (s.respond k bs len v).schedule = s.schedule := rfl

@[simp] theorem State.respond_responses (s : State) (k : Nat) (bs : List Byte) (len v : Nat) : (s.respond k bs len v).responses = s.responses ++ [⟨.ok, BitVec.ofNat 4 len, BitVec.ofNat 64 v⟩] := rfl

/-! ### `raise`: taking an error -/

@[simp] theorem State.raise_inp (s : State) (st : Status) (k : Nat) : (s.raise st k).inp = s.inp := rfl

@[simp] theorem State.raise_rpos (s : State) (st : Status) (k : Nat) : (s.raise st k).rpos = s.rpos := rfl

@[simp] theorem State.raise_out (s : State) (st : Status) (k : Nat) : (s.raise st k).out = s.out := rfl

@[simp] theorem State.raise_inFlight (s : State) (st : Status) (k : Nat) : (s.raise st k).inFlight = none := rfl

@[simp] theorem State.raise_ports (s : State) (st : Status) (k : Nat) : (s.raise st k).ports = Ports.drive k [] ⟨st, BitVec.ofNat 4 k, 0⟩ := rfl

@[simp] theorem State.raise_wrReady (s : State) (st : Status) (k : Nat) : (s.raise st k).wrReady = s.wrReady := rfl

@[simp] theorem State.raise_schedule (s : State) (st : Status) (k : Nat) : (s.raise st k).schedule = s.schedule := rfl

@[simp] theorem State.raise_responses (s : State) (st : Status) (k : Nat) : (s.raise st k).responses = s.responses ++ [⟨st, BitVec.ofNat 4 k, 0⟩] := rfl

/-! ### `applyReset`: reset -/

@[simp] theorem State.applyReset_inp (s : State) : (s.applyReset).inp = s.inp := rfl

@[simp] theorem State.applyReset_rpos (s : State) : (s.applyReset).rpos = s.rpos := rfl

@[simp] theorem State.applyReset_out (s : State) : (s.applyReset).out = s.out := rfl

@[simp] theorem State.applyReset_inFlight (s : State) : (s.applyReset).inFlight = none := rfl

@[simp] theorem State.applyReset_ports (s : State) : (s.applyReset).ports = Ports.idle := rfl

@[simp] theorem State.applyReset_wrReady (s : State) : (s.applyReset).wrReady = s.wrReady := rfl

@[simp] theorem State.applyReset_schedule (s : State) : (s.applyReset).schedule = s.schedule := rfl

@[simp] theorem State.applyReset_responses (s : State) : (s.applyReset).responses = s.responses := rfl

/-! ### `accept`: acceptance of a command -/

@[simp] theorem State.accept_inp (s : State) (cw : CmdWord) (rest : List Event) : (s.accept cw rest).inp = s.inp := rfl

@[simp] theorem State.accept_rpos (s : State) (cw : CmdWord) (rest : List Event) : (s.accept cw rest).rpos = s.rpos := rfl

@[simp] theorem State.accept_out (s : State) (cw : CmdWord) (rest : List Event) : (s.accept cw rest).out = s.out := rfl

@[simp] theorem State.accept_inFlight (s : State) (cw : CmdWord) (rest : List Event) : (s.accept cw rest).inFlight = some cw := rfl

@[simp] theorem State.accept_ports (s : State) (cw : CmdWord) (rest : List Event) : (s.accept cw rest).ports = Ports.busy := rfl

@[simp] theorem State.accept_wrReady (s : State) (cw : CmdWord) (rest : List Event) : (s.accept cw rest).wrReady = s.wrReady := rfl

@[simp] theorem State.accept_schedule (s : State) (cw : CmdWord) (rest : List Event) : (s.accept cw rest).schedule = rest := rfl

@[simp] theorem State.accept_responses (s : State) (cw : CmdWord) (rest : List Event) : (s.accept cw rest).responses = s.responses := rfl

/-! ### `betweenCommands`: an event between commands -/

@[simp] theorem State.betweenCommands_inp (s : State) (rest : List Event) : (s.betweenCommands rest).inp = s.inp := rfl

@[simp] theorem State.betweenCommands_rpos (s : State) (rest : List Event) : (s.betweenCommands rest).rpos = s.rpos := rfl

@[simp] theorem State.betweenCommands_out (s : State) (rest : List Event) : (s.betweenCommands rest).out = s.out := rfl

@[simp] theorem State.betweenCommands_inFlight (s : State) (rest : List Event) : (s.betweenCommands rest).inFlight = s.inFlight := rfl

@[simp] theorem State.betweenCommands_ports (s : State) (rest : List Event) : (s.betweenCommands rest).ports = Ports.idle := rfl

@[simp] theorem State.betweenCommands_wrReady (s : State) (rest : List Event) : (s.betweenCommands rest).wrReady = s.wrReady := rfl

@[simp] theorem State.betweenCommands_schedule (s : State) (rest : List Event) : (s.betweenCommands rest).schedule = rest := rfl

@[simp] theorem State.betweenCommands_responses (s : State) (rest : List Event) : (s.betweenCommands rest).responses = s.responses := rfl

/-! ### `bindIn`: `.in` -/

@[simp] theorem State.bindIn_inp (s : State) (bs : List Byte) : (s.bindIn bs).inp = bs := rfl

@[simp] theorem State.bindIn_rpos (s : State) (bs : List Byte) : (s.bindIn bs).rpos = 0 := rfl

@[simp] theorem State.bindIn_out (s : State) (bs : List Byte) : (s.bindIn bs).out = s.out := rfl

@[simp] theorem State.bindIn_inFlight (s : State) (bs : List Byte) : (s.bindIn bs).inFlight = s.inFlight := rfl

@[simp] theorem State.bindIn_ports (s : State) (bs : List Byte) : (s.bindIn bs).ports = s.ports := rfl

@[simp] theorem State.bindIn_wrReady (s : State) (bs : List Byte) : (s.bindIn bs).wrReady = s.wrReady := rfl

@[simp] theorem State.bindIn_schedule (s : State) (bs : List Byte) : (s.bindIn bs).schedule = s.schedule := rfl

@[simp] theorem State.bindIn_responses (s : State) (bs : List Byte) : (s.bindIn bs).responses = s.responses := rfl

/-! ### `bindOut`: `.out` -/

@[simp] theorem State.bindOut_inp (s : State) (bs : List Byte) : (s.bindOut bs).inp = s.inp := rfl

@[simp] theorem State.bindOut_rpos (s : State) (bs : List Byte) : (s.bindOut bs).rpos = s.rpos := rfl

@[simp] theorem State.bindOut_out (s : State) (bs : List Byte) : (s.bindOut bs).out = bs := rfl

@[simp] theorem State.bindOut_inFlight (s : State) (bs : List Byte) : (s.bindOut bs).inFlight = s.inFlight := rfl

@[simp] theorem State.bindOut_ports (s : State) (bs : List Byte) : (s.bindOut bs).ports = s.ports := rfl

@[simp] theorem State.bindOut_wrReady (s : State) (bs : List Byte) : (s.bindOut bs).wrReady = s.wrReady := rfl

@[simp] theorem State.bindOut_schedule (s : State) (bs : List Byte) : (s.bindOut bs).schedule = s.schedule := rfl

@[simp] theorem State.bindOut_responses (s : State) (bs : List Byte) : (s.bindOut bs).responses = s.responses := rfl

/-! ### `bindInFromOut`: `.in_from_out` -/

@[simp] theorem State.bindInFromOut_inp (s : State) : (s.bindInFromOut).inp = s.out := rfl

@[simp] theorem State.bindInFromOut_rpos (s : State) : (s.bindInFromOut).rpos = 0 := rfl

@[simp] theorem State.bindInFromOut_out (s : State) : (s.bindInFromOut).out = s.out := rfl

@[simp] theorem State.bindInFromOut_inFlight (s : State) : (s.bindInFromOut).inFlight = s.inFlight := rfl

@[simp] theorem State.bindInFromOut_ports (s : State) : (s.bindInFromOut).ports = s.ports := rfl

@[simp] theorem State.bindInFromOut_wrReady (s : State) : (s.bindInFromOut).wrReady = s.wrReady := rfl

@[simp] theorem State.bindInFromOut_schedule (s : State) : (s.bindInFromOut).schedule = s.schedule := rfl

@[simp] theorem State.bindInFromOut_responses (s : State) : (s.bindInFromOut).responses = s.responses := rfl

/-! ### `present`: presenting a word -/

@[simp] theorem State.present_inp (s : State) (cw : CmdWord) : (s.present cw).inp = s.inp := rfl

@[simp] theorem State.present_rpos (s : State) (cw : CmdWord) : (s.present cw).rpos = s.rpos := rfl

@[simp] theorem State.present_out (s : State) (cw : CmdWord) : (s.present cw).out = s.out := rfl

@[simp] theorem State.present_inFlight (s : State) (cw : CmdWord) : (s.present cw).inFlight = none := rfl

@[simp] theorem State.present_ports (s : State) (cw : CmdWord) : (s.present cw).ports = s.ports := rfl

@[simp] theorem State.present_wrReady (s : State) (cw : CmdWord) : (s.present cw).wrReady = true := rfl

@[simp] theorem State.present_schedule (s : State) (cw : CmdWord) : (s.present cw).schedule = .command cw :: s.schedule := rfl

@[simp] theorem State.present_responses (s : State) (cw : CmdWord) : (s.present cw).responses = s.responses := rfl

/-! ### `waitForWriter`: the wait for the Writer -/

@[simp] theorem State.waitForWriter_inp (s t : State) : (s.waitForWriter t).inp = s.inp := rfl

@[simp] theorem State.waitForWriter_rpos (s t : State) : (s.waitForWriter t).rpos = s.rpos := rfl

@[simp] theorem State.waitForWriter_out (s t : State) : (s.waitForWriter t).out = s.out := rfl

@[simp] theorem State.waitForWriter_inFlight (s t : State) : (s.waitForWriter t).inFlight = s.inFlight := rfl

@[simp] theorem State.waitForWriter_ports (s t : State) : (s.waitForWriter t).ports = { Ports.busy with wrValid := true, wrCount := t.ports.wrCount, wrBytes := t.ports.wrBytes } := rfl

@[simp] theorem State.waitForWriter_wrReady (s t : State) : (s.waitForWriter t).wrReady = s.wrReady := rfl

@[simp] theorem State.waitForWriter_schedule (s t : State) : (s.waitForWriter t).schedule = s.schedule := rfl

@[simp] theorem State.waitForWriter_responses (s t : State) : (s.waitForWriter t).responses = s.responses := rfl

/-! ### `Ports.drive`: the ports with a response -/

@[simp] theorem Ports.drive_cmdReady (k : Nat) (bs : List Byte) (r : Response) : (Ports.drive k bs r).cmdReady = true := rfl

@[simp] theorem Ports.drive_rdConsume (k : Nat) (bs : List Byte) (r : Response) : (Ports.drive k bs r).rdConsume = BitVec.ofNat 4 k := rfl

@[simp] theorem Ports.drive_wrValid (k : Nat) (bs : List Byte) (r : Response) : (Ports.drive k bs r).wrValid = !bs.isEmpty := rfl

@[simp] theorem Ports.drive_wrCount (k : Nat) (bs : List Byte) (r : Response) : (Ports.drive k bs r).wrCount = BitVec.ofNat 4 bs.length := rfl

@[simp] theorem Ports.drive_wrBytes (k : Nat) (bs : List Byte) (r : Response) : (Ports.drive k bs r).wrBytes = BitVec.ofNat 72 (le bs) := rfl

@[simp] theorem Ports.drive_rspValid (k : Nat) (bs : List Byte) (r : Response) : (Ports.drive k bs r).rspValid = true := rfl

@[simp] theorem Ports.drive_rspStatus (k : Nat) (bs : List Byte) (r : Response) : (Ports.drive k bs r).rspStatus = statusCode r.status := rfl

@[simp] theorem Ports.drive_rspLen (k : Nat) (bs : List Byte) (r : Response) : (Ports.drive k bs r).rspLen = r.len := rfl

@[simp] theorem Ports.drive_rspValue (k : Nat) (bs : List Byte) (r : Response) : (Ports.drive k bs r).rspValue = r.value := rfl

/-! ### The memory operations -/

/-- `Consume(k)` where it is defined (20_memory.md R47). -/
theorem State.consume_eq_some {s t : State} {k : Nat} :
    s.consume k = some t ↔ (k ≤ 9 ∧ k ≤ s.remaining) ∧ { s with rpos := s.rpos + k } = t := by
  unfold State.consume
  split <;> simp [*]

/-- `Append(n, B)` where it is defined (20_memory.md R50). -/
theorem State.append_eq_some {s t : State} {bs : List Byte} :
    s.append bs = some t ↔ (1 ≤ bs.length ∧ bs.length ≤ 9) ∧ { s with out := s.out ++ bs } = t := by
  unfold State.append
  split <;> simp [*]

/-- `MemRead(a, n)` where it is defined gives n bytes, each the byte of IN at its index (20_memory.md R46). -/
theorem State.memRead_eq_some {s : State} {a n : Nat} {bs : List Byte} (h : s.memRead a n = some bs) :
    bs.length = n ∧ ∀ i, i < n → bs[i]? = s.inByte (a + i) := by
  unfold State.memRead at h
  split at h
  · cases h
    refine ⟨by simp; omega, fun i hi => ?_⟩
    simp [State.inByte, hi]
  · cases h

/-- The bytes of OUT after an append: the old ones where they were, the new ones after them (20_memory.md R50). -/
theorem append_getElem? (out bs : List Byte) (a : Nat) :
    (out ++ bs)[a]? = if a < out.length then out[a]? else bs[a - out.length]? := by
  split
  · rename_i h; exact List.getElem?_append_left h
  · rename_i h; exact List.getElem?_append_right (by omega)

/-- Every space has the canonical form, so every operation keeps it (log entry 5). -/
theorem spaceCells_wf (space : List Byte) : Memory.wf (spaceCells space) := by
  simp only [Memory.wf, spaceCells, List.map_map, List.length_map, List.length_zipIdx]
  rw [show (Prod.fst ∘ fun p : Byte × Nat => (p.2, p.1)) = Prod.snd from rfl, List.zipIdx_map_snd,
    List.range_eq_range']

/-- Every memory operation keeps the canonical form of both spaces (20_memory.md R47, R50). -/
theorem memory_ops_keep_wf {s t : State} {k : Nat} {bs : List Byte}
    (_ : s.consume k = some t ∨ s.append bs = some t ∨ s.bindIn bs = t ∨ s.bindOut bs = t ∨ s.bindInFromOut = t) :
    Memory.wf (spaceCells t.inp) ∧ Memory.wf (spaceCells t.out) :=
  ⟨spaceCells_wf _, spaceCells_wf _⟩

/-- The spaces of the state after reset have the canonical form. -/
theorem reset_memory_wf : Memory.wf (spaceCells State.reset.inp) ∧ Memory.wf (spaceCells State.reset.out) := by decide

/-- Equal cell views are equal spaces. -/
theorem spaceCells_injective {as bs : List Byte} (h : spaceCells as = spaceCells bs) : as = bs := by
  have e (l : List Byte) : (spaceCells l).map Prod.snd = l := by
    simp only [spaceCells, List.map_map]
    rw [show (Prod.snd ∘ fun p : Byte × Nat => (p.2, p.1)) = Prod.fst from rfl, List.zipIdx_map_fst]
  rw [← e as, ← e bs, h]

end Sys2Proof.Laws
end

