-- ==== Sys2Proof/Laws/Ops.lean ====
section
/-! SUPPORT. One lemma per shared operation that says everything it can do, and the one equation that says everything an
instruction can do (`exec_eq_answer`): what it consumes, what it appends and what it answers depend on IN and RPOS
alone. -/

namespace Sys2Proof.Laws

open Sys2Proof.Machine

/-! ### The shared operations -/

/-- The state after a command that consumed k bytes, appended `bs` and answered r. -/
def after (s : State) (k : Nat) (bs : List Byte) (r : Response) : State :=
  State.deliver { s with rpos := s.rpos + k, out := s.out ++ bs } k bs r

@[simp] theorem after_inp (s : State) (k : Nat) (bs : List Byte) (r : Response) : (after s k bs r).inp = s.inp := rfl

@[simp] theorem after_rpos (s : State) (k : Nat) (bs : List Byte) (r : Response) : (after s k bs r).rpos = s.rpos + k := rfl

@[simp] theorem after_out (s : State) (k : Nat) (bs : List Byte) (r : Response) : (after s k bs r).out = s.out ++ bs := rfl

@[simp] theorem after_inFlight (s : State) (k : Nat) (bs : List Byte) (r : Response) : (after s k bs r).inFlight = none := rfl

@[simp] theorem after_ports (s : State) (k : Nat) (bs : List Byte) (r : Response) :
    (after s k bs r).ports = Ports.drive k bs r := rfl

@[simp] theorem after_wrReady (s : State) (k : Nat) (bs : List Byte) (r : Response) :
    (after s k bs r).wrReady = s.wrReady := rfl

@[simp] theorem after_schedule (s : State) (k : Nat) (bs : List Byte) (r : Response) :
    (after s k bs r).schedule = s.schedule := rfl

@[simp] theorem after_responses (s : State) (k : Nat) (bs : List Byte) (r : Response) :
    (after s k bs r).responses = s.responses ++ [r] := rfl

/-- A command that consumes and appends nothing. -/
theorem deliver_eq_after (s : State) (r : Response) : s.deliver 0 [] r = after s 0 [] r := by
  simp [after]

/-- The success of PACK and ENCODE (42_encoder.md R131, R137). -/
theorem appendForm_eq {n : Nat} (v : Nat) (s : State) (h1 : 1 ≤ n) (h9 : n ≤ 9) :
    appendForm n v s = .next (after s 0 (form n v) ⟨.ok, BitVec.ofNat 4 n, 0⟩) := by
  have ha : s.append (form n v) = some { s with out := s.out ++ form n v } := by
    rw [State.append_eq_some, form_length v h1]
    exact ⟨⟨h1, h9⟩, rfl⟩
  simp only [appendForm, ha]
  rfl

/-- FITCHK at a width (44_narrowing.md R182). -/
theorem fitchk_eq (w : Width) (v : Nat) (s : State) : fitchk w v s = .next (after s 0 []
    (if fits w v then ⟨.ok, 0, BitVec.ofNat 64 v⟩ else ⟨.range, 0, 0⟩)) := by
  unfold fitchk
  split <;> rw [← deliver_eq_after] <;> rfl

/-- Both paths read the form `dec` finds (43_decoder.md R151, R164). -/
theorem decodeForm_eq (p : Sys2Proof.Path) (s : State) : decodeForm p s = .ok (dec s.inp s.rpos) := by
  cases p with
  | safe => rfl
  | fast =>
    simp only [decodeForm]
    split
    · rename_i h
      simp only [Config.window, State.remaining] at h
      have hr : s.memRead s.rpos Config.window = some ((view s.inp s.rpos).take 9) := by
        exact if_pos (by simp only [Config.window]; omega)
      have hl := length_view s.inp s.rpos
      rw [hr]
      unfold dec
      cases hv : view s.inp s.rpos with
      | nil => rw [hv, List.length_nil] at hl; omega
      | cons b0 rest =>
        have hb := hlen_range b0
        rw [hv, List.length_cons] at hl
        simp only [List.take_succ_cons, decWindow]
        rw [if_neg (by omega), List.take_take, show min (hlen b0 - 1) 8 = hlen b0 - 1 by omega]
    · rfl

/-- What the decode commands consume and answer. -/
def decodeAnswer (fit : Nat → Bool) (inp : List Byte) (rpos : Nat) : Option (Nat × List Byte × Response) :=
  if rpos ≤ inp.length then
    match dec inp rpos with
    | none => some (0, [], ⟨.truncated, 0, 0⟩)
    | some (n, v) =>
      if fit v then some (n, [], ⟨.ok, BitVec.ofNat 4 n, BitVec.ofNat 64 v⟩)
      else some (n, [], ⟨.range, BitVec.ofNat 4 n, 0⟩)
  else none

/-- What an answer makes of a state. -/
def answered (s : State) (a : Option (Nat × List Byte × Response)) : Result :=
  match a with
  | some (k, bs, r) => .next (after s k bs r)
  | none => .refused .cursorOutsideInput

/-- The decode commands on either path (43_decoder.md R152, R164, 44_narrowing.md R183). -/
theorem finishDecode_eq (fit : Nat → Bool) (p : Sys2Proof.Path) (s : State) :
    withCursor s (finishDecode fit (decodeForm p s) s) = answered s (decodeAnswer fit s.inp s.rpos) := by
  unfold withCursor decodeAnswer
  rw [decodeForm_eq]
  split
  · cases hd : dec s.inp s.rpos with
    | none => simp only [finishDecode, answered, ← deliver_eq_after]; rfl
    | some nv =>
      obtain ⟨n, v⟩ := nv
      have hs := dec_some hd
      have hn : n ≤ 9 := by have := hs.1; rw [formDefined_iff] at this; omega
      have hc : s.consume n = some { s with rpos := s.rpos + n } := by
        rw [State.consume_eq_some]; exact ⟨⟨hn, hs.2.1⟩, rfl⟩
      simp only [finishDecode, hc]
      split <;> simp [answered, after, State.respond, State.raise]
  · rfl

/-! ### What an instruction can do -/

/-- What each instruction consumes, appends and answers, as a function of IN and RPOS. -/
def answer (i : Instr) (inp : List Byte) (rpos : Nat) : Option (Nat × List Byte × Response) :=
  match i with
  | .reqlen v => some (0, [], ⟨.ok, BitVec.ofNat 4 (reqlen v.toNat), 0⟩)
  | .pack n v =>
    if formDefined n.toNat v.toNat then some (0, form n.toNat v.toNat, ⟨.ok, n, 0⟩) else some (0, [], ⟨.badlen, 0, 0⟩)
  | .encode v =>
    some (0, form (reqlen v.toNat) v.toNat, ⟨.ok, BitVec.ofNat 4 (reqlen v.toNat), 0⟩)
  | .fitchkU8 v => some (0, [], if fits .u8 v.toNat then ⟨.ok, 0, v⟩ else ⟨.range, 0, 0⟩)
  | .fitchkU16 v => some (0, [], if fits .u16 v.toNat then ⟨.ok, 0, v⟩ else ⟨.range, 0, 0⟩)
  | .fitchkU32 v => some (0, [], if fits .u32 v.toNat then ⟨.ok, 0, v⟩ else ⟨.range, 0, 0⟩)
  | .fitchkU64 v => some (0, [], if fits .u64 v.toNat then ⟨.ok, 0, v⟩ else ⟨.range, 0, 0⟩)
  | .decode => decodeAnswer (fun _ => true) inp rpos
  | .decodeF => decodeAnswer (fun _ => true) inp rpos
  | .decodeAsU8 => decodeAnswer (fits .u8) inp rpos
  | .decodeAsU16 => decodeAnswer (fits .u16) inp rpos
  | .decodeAsU32 => decodeAnswer (fits .u32) inp rpos
  | .decodeAsU64 => decodeAnswer (fits .u64) inp rpos
  | .decodeAsU8F => decodeAnswer (fits .u8) inp rpos
  | .decodeAsU16F => decodeAnswer (fits .u16) inp rpos
  | .decodeAsU32F => decodeAnswer (fits .u32) inp rpos
  | .decodeAsU64F => decodeAnswer (fits .u64) inp rpos

/-- PACK's two tests reject exactly what is outside the domain of `form` (42_encoder.md R134). -/
theorem pack_tests (n : BitVec 4) (v : Value) : formDefined n.toNat v.toNat =
    (!badLength n.toNat && !badFit n.toNat v.toNat) := by
  have hv := v.isLt
  rw [Bool.eq_iff_iff, formDefined_iff]
  simp only [badLength, badFit, Config.payloadBitsPerByte, Bool.and_eq_true, Bool.not_eq_true', Bool.or_eq_false_iff,
    Bool.and_eq_false_iff, decide_eq_false_iff_not, beq_eq_false_iff_ne]
  omega

theorem pack_eq (n : BitVec 4) (v : Value) (s : State) :
    execPack n v s = answered s (answer (.pack n v) s.inp s.rpos) := by
  have ht := pack_tests n v
  simp only [execPack, lengthOperand, valueOperand, answer]
  by_cases hd : formDefined n.toNat v.toNat = true
  · simp only [hd, Bool.true_eq, Bool.and_eq_true, Bool.not_eq_true'] at ht
    rw [formDefined_iff] at hd
    simp only [ht, Bool.false_eq_true, if_false, formDefined_iff, hd, if_true, answered]
    rw [appendForm_eq v.toNat s (by omega) (by omega), BitVec.ofNat_toNat, BitVec.setWidth_eq]
  · rw [if_neg hd]
    simp only [Bool.not_eq_true] at hd
    rw [hd] at ht
    have hb : badLength n.toNat = true ∨ badFit n.toNat v.toNat = true := by
      cases h1 : badLength n.toNat <;> cases h2 : badFit n.toNat v.toNat <;> simp_all
    rcases hb with hb | hb <;> simp only [hb, if_true, ite_self, answered, ← deliver_eq_after] <;> rfl

theorem fitchk_answer (w : Width) (v : Value) (s : State) :
    fitchk w (valueOperand v) s = answered s (some (0, [], if fits w v.toNat then ⟨.ok, 0, v⟩ else ⟨.range, 0, 0⟩)) := by
  simp [fitchk_eq, answered, valueOperand]

/-- Everything an instruction can do, said once: it answers, or the cursor is outside the input. -/
theorem exec_eq_answer (i : Instr) (s : State) : exec i s = answered s (answer i s.inp s.rpos) := by
  cases i with
  | reqlen v => simp only [exec, execReqlen, answered, answer, ← deliver_eq_after]; rfl
  | pack n v => exact pack_eq n v s
  | encode v =>
    simp only [exec, execEncode, valueOperand, answer, answered]
    exact appendForm_eq v.toNat s (reqlen_pos _) (reqlen_le_nine _)
  | fitchkU8 v => exact fitchk_answer .u8 v s
  | fitchkU16 v => exact fitchk_answer .u16 v s
  | fitchkU32 v => exact fitchk_answer .u32 v s
  | fitchkU64 v => exact fitchk_answer .u64 v s
  | decode => exact finishDecode_eq _ .safe s
  | decodeF => exact finishDecode_eq _ .fast s
  | decodeAsU8 => exact finishDecode_eq _ .safe s
  | decodeAsU16 => exact finishDecode_eq _ .safe s
  | decodeAsU32 => exact finishDecode_eq _ .safe s
  | decodeAsU64 => exact finishDecode_eq _ .safe s
  | decodeAsU8F => exact finishDecode_eq _ .fast s
  | decodeAsU16F => exact finishDecode_eq _ .fast s
  | decodeAsU32F => exact finishDecode_eq _ .fast s
  | decodeAsU64F => exact finishDecode_eq _ .fast s

/-- An instruction that answers a next state, in one line. -/
theorem exec_next_iff {i : Instr} {s t : State} : exec i s = .next t ↔
    ∃ k bs r, answer i s.inp s.rpos = some (k, bs, r) ∧ after s k bs r = t := by
  rw [exec_eq_answer]
  cases h : answer i s.inp s.rpos with
  | none => simp [answered]
  | some a => obtain ⟨k, bs, r⟩ := a; simp [answered]

end Sys2Proof.Laws
end

