-- ==== Sys2Proof/Laws/Step.lean ====
section
/-! SUPPORT. What an answer can be, what running a command can do, and the one inversion lemma of a step
(`step_next_cases`). -/

namespace Sys2Proof.Laws

open Sys2Proof.Machine

/-! ### What an answer can be -/

/-- What a decode command can answer (43_decoder.md R152, R153, 44_narrowing.md R183). -/
theorem decodeAnswer_cases {fit : Nat → Bool} {inp : List Byte} {rpos k : Nat} {bs : List Byte} {r : Response}
    (h : decodeAnswer fit inp rpos = some (k, bs, r)) : rpos ≤ inp.length ∧ bs = [] ∧
      ((dec inp rpos = none ∧ k = 0 ∧ r = ⟨.truncated, 0, 0⟩) ∨
        ∃ v, dec inp rpos = some (k, v) ∧
          ((fit v = true ∧ r = ⟨.ok, BitVec.ofNat 4 k, BitVec.ofNat 64 v⟩) ∨
            (fit v = false ∧ r = ⟨.range, BitVec.ofNat 4 k, 0⟩))) := by
  unfold decodeAnswer at h
  split at h
  · rename_i hle
    refine ⟨hle, ?_⟩
    cases hd : dec inp rpos with
    | none =>
      simp only [hd, Option.some.injEq, Prod.mk.injEq] at h
      obtain ⟨rfl, rfl, rfl⟩ := h
      simp
    | some nv =>
      obtain ⟨n, v⟩ := nv
      rw [hd] at h
      cases hf : fit v <;> simp only [hf, if_true, if_false, Bool.false_eq_true, Option.some.injEq, Prod.mk.injEq] at h
        <;> obtain ⟨rfl, rfl, rfl⟩ := h <;> simp [hf]
  · cases h

/-- A 4-bit length of at most nine. -/
theorem ofNat_le_nine {n : Nat} (h : n ≤ 9) : (BitVec.ofNat 4 n).toNat = n ∧ BitVec.ofNat 4 n ≤ 9 := by
  have e : (BitVec.ofNat 4 n).toNat = n := by rw [BitVec.toNat_ofNat]; omega
  exact ⟨e, by rw [BitVec.le_def, e]; exact h⟩

/-- A failing response with nothing in it is legal. -/
theorem legal_failure (st : Status) : Response.Legal ⟨st, 0, 0⟩ := ⟨by simp, fun _ => rfl⟩

/-- An OK response with no length is legal. -/
theorem legal_value (v : Value) : Response.Legal ⟨.ok, 0, v⟩ := ⟨by simp, by simp⟩

/-- What every instruction's answer obeys: it consumes and appends at most nine bytes, never both, consumes no more
than remains, and gives a legal response whose `len` is the bytes consumed when it fails (10_state.md R28). -/
theorem answer_bounds {i : Instr} {inp : List Byte} {rpos k : Nat} {bs : List Byte} {r : Response}
    (h : answer i inp rpos = some (k, bs, r)) :
    k ≤ 9 ∧ k ≤ inp.length - rpos ∧ bs.length ≤ 9 ∧ r.Legal ∧
      (r.status ≠ .ok → bs = [] ∧ r.len = BitVec.ofNat 4 k) := by
  have dcase {fit : Nat → Bool} (h : decodeAnswer fit inp rpos = some (k, bs, r)) :
      k ≤ 9 ∧ k ≤ inp.length - rpos ∧ bs.length ≤ 9 ∧ r.Legal ∧
        (r.status ≠ .ok → bs = [] ∧ r.len = BitVec.ofNat 4 k) := by
    obtain ⟨hle, rfl, ⟨hd, rfl, rfl⟩ | ⟨v, hd, hr⟩⟩ := decodeAnswer_cases h
    · exact ⟨by simp, by simp, by simp, legal_failure _, by simp⟩
    · have hs := dec_some hd
      have hk : k ≤ 9 := by have := hs.1; rw [formDefined_iff] at this; omega
      refine ⟨hk, hs.2.1, by simp, ?_⟩
      rcases hr with ⟨-, rfl⟩ | ⟨-, rfl⟩ <;> exact ⟨⟨(ofNat_le_nine hk).2, by simp⟩, by simp⟩
  have fcase {w : Width} {v : Value} (h : some (0, ([] : List Byte), if fits w v.toNat then (⟨.ok, 0, v⟩ : Response)
      else ⟨.range, 0, 0⟩) = some (k, bs, r)) : k ≤ 9 ∧ k ≤ inp.length - rpos ∧ bs.length ≤ 9 ∧ r.Legal ∧
        (r.status ≠ .ok → bs = [] ∧ r.len = BitVec.ofNat 4 k) := by
    simp only [Option.some.injEq, Prod.mk.injEq] at h
    obtain ⟨rfl, rfl, rfl⟩ := h
    refine ⟨by simp, by simp, by simp, ?_, by split <;> simp⟩
    split
    · exact legal_value v
    · exact legal_failure _
  cases i with
  | reqlen v =>
    simp only [answer, Option.some.injEq, Prod.mk.injEq] at h
    obtain ⟨rfl, rfl, rfl⟩ := h
    exact ⟨by simp, by simp, by simp, ⟨(ofNat_le_nine (reqlen_le_nine _)).2, by simp⟩, by simp⟩
  | pack n v =>
    simp only [answer] at h
    split at h
    · rename_i hd
      rw [formDefined_iff] at hd
      simp only [Option.some.injEq, Prod.mk.injEq] at h
      obtain ⟨rfl, rfl, rfl⟩ := h
      refine ⟨by simp, by simp, by rw [form_length _ (by omega)]; omega, ⟨?_, by simp⟩, by simp⟩
      rw [BitVec.le_def]; show n.toNat ≤ 9; omega
    · simp only [Option.some.injEq, Prod.mk.injEq] at h
      obtain ⟨rfl, rfl, rfl⟩ := h
      exact ⟨by simp, by simp, by simp, legal_failure _, by simp⟩
  | encode v =>
    simp only [answer, Option.some.injEq, Prod.mk.injEq] at h
    obtain ⟨rfl, rfl, rfl⟩ := h
    have h9 := reqlen_le_nine v.toNat
    exact ⟨by simp, by simp, by rw [form_length _ (reqlen_pos _)]; exact h9, ⟨(ofNat_le_nine h9).2, by simp⟩, by simp⟩
  | fitchkU8 v => exact fcase (w := .u8) h
  | fitchkU16 v => exact fcase (w := .u16) h
  | fitchkU32 v => exact fcase (w := .u32) h
  | fitchkU64 v => exact fcase (w := .u64) h
  | decode => exact dcase h
  | decodeF => exact dcase h
  | decodeAsU8 => exact dcase h
  | decodeAsU16 => exact dcase h
  | decodeAsU32 => exact dcase h
  | decodeAsU64 => exact dcase h
  | decodeAsU8F => exact dcase h
  | decodeAsU16F => exact dcase h
  | decodeAsU32F => exact dcase h
  | decodeAsU64F => exact dcase h

/-! ### What running a command can do -/

/-- What a command word answers: the answer of the instruction it spells, or ILLEGAL (30_encoding.md R78). -/
def wordAnswer (cw : CmdWord) (inp : List Byte) (rpos : Nat) : Option (Nat × List Byte × Response) :=
  match decodeWord cw with
  | .ok i => answer i inp rpos
  | .error _ => some (0, [], ⟨.illegal, 0, 0⟩)

theorem execWord_eq (cw : CmdWord) (s : State) : execWord cw s = answered s (wordAnswer cw s.inp s.rpos) := by
  unfold execWord wordAnswer
  cases decodeWord cw with
  | ok i => exact exec_eq_answer i s
  | error _ => simp only [illegalCommand, answered, ← deliver_eq_after]; rfl

theorem wordAnswer_bounds {cw : CmdWord} {inp : List Byte} {rpos k : Nat} {bs : List Byte} {r : Response}
    (h : wordAnswer cw inp rpos = some (k, bs, r)) :
    k ≤ 9 ∧ k ≤ inp.length - rpos ∧ bs.length ≤ 9 ∧ r.Legal ∧
      (r.status ≠ .ok → bs = [] ∧ r.len = BitVec.ofNat 4 k) := by
  unfold wordAnswer at h
  split at h
  · exact answer_bounds h
  · simp only [Option.some.injEq, Prod.mk.injEq] at h
    obtain ⟨rfl, rfl, rfl⟩ := h
    exact ⟨by simp, by simp, by simp, legal_failure _, by simp⟩

/-- Running a command, by its answer: it completes, or its append waits for the Writer (20_memory.md R51). -/
theorem runCommand_eq (cw : CmdWord) (s : State) : runCommand cw s =
    match wordAnswer cw s.inp s.rpos with
    | none => .refused .cursorOutsideInput
    | some (k, bs, r) =>
      if bs.isEmpty = false ∧ s.wrReady = false then .next (s.waitForWriter (after s k bs r))
      else .next (after s k bs r) := by
  rw [runCommand, execWord_eq]
  cases h : wordAnswer cw s.inp s.rpos with
  | none => rfl
  | some a =>
    obtain ⟨k, bs, r⟩ := a
    cases hb : bs.isEmpty <;> cases hw : s.wrReady <;> simp [answered, writerGate, hb, hw]

/-- With the Writer ready a command completes as `exec` says. -/
theorem runCommand_ready {cw : CmdWord} {i : Instr} {s : State} (hw : s.wrReady = true) (hi : decodeWord cw = .ok i) :
    runCommand cw s = exec i s := by
  rw [runCommand_eq, exec_eq_answer]
  simp only [wordAnswer, hi, hw]
  cases answer i s.inp s.rpos with
  | none => rfl
  | some a => obtain ⟨k, bs, r⟩ := a; simp [answered]

/-- A command whose answer appends nothing completes as `exec` says, whatever the Writer does. -/
theorem runCommand_of_no_append {cw : CmdWord} {i : Instr} {s : State} (hi : decodeWord cw = .ok i)
    (h : ∀ k bs r, answer i s.inp s.rpos = some (k, bs, r) → bs = []) : runCommand cw s = exec i s := by
  rw [runCommand_eq, exec_eq_answer]
  simp only [wordAnswer, hi]
  cases ha : answer i s.inp s.rpos with
  | none => rfl
  | some a => obtain ⟨k, bs, r⟩ := a; simp [answered, h k bs r ha]

/-- Everything running a command can do when it answers a next state. -/
theorem runCommand_next {cw : CmdWord} {s t : State} (h : runCommand cw s = .next t) :
    ∃ k bs r, wordAnswer cw s.inp s.rpos = some (k, bs, r) ∧
      (t = after s k bs r ∨ (bs ≠ [] ∧ s.wrReady = false ∧ t = s.waitForWriter (after s k bs r))) := by
  rw [runCommand_eq] at h
  cases ha : wordAnswer cw s.inp s.rpos with
  | none => rw [ha] at h; cases h
  | some a =>
    obtain ⟨k, bs, r⟩ := a
    simp only [ha] at h
    refine ⟨k, bs, r, rfl, ?_⟩
    split at h
    · rename_i hc
      cases h
      exact .inr ⟨by rintro rfl; simp at hc, hc.2, rfl⟩
    · cases h
      exact .inl rfl

/-! ### What a step can do -/

/-- Everything a step can do when it answers a next state. -/
theorem step_next_cases {s t : State} (h : step s = .next t) :
    (∃ cw rest, s.inFlight = none ∧ s.schedule = .command cw :: rest ∧ runCommand cw (s.accept cw rest) = .next t) ∨
    (∃ cw, s.inFlight = some cw ∧ s.wrReady = true ∧ runCommand cw s = .next t) ∨
    (s.inFlight = none ∧ s.schedule = [] ∧ t = s.betweenCommands []) ∨
    (∃ bs rest, s.inFlight = none ∧ s.schedule = .bindIn bs :: rest ∧ t = (s.betweenCommands rest).bindIn bs) ∨
    (∃ k rest, s.inFlight = none ∧ s.schedule = .setRpos k :: rest ∧ k ≤ s.inp.length ∧
      t = { s.betweenCommands rest with rpos := k }) ∨
    (∃ bs rest, s.inFlight = none ∧ s.schedule = .bindOut bs :: rest ∧ t = (s.betweenCommands rest).bindOut bs) ∨
    (∃ rest, s.inFlight = none ∧ s.schedule = .inFromOut :: rest ∧ t = (s.betweenCommands rest).bindInFromOut) ∨
    (∃ rest, s.inFlight = none ∧ s.schedule = .reset :: rest ∧ t = (s.betweenCommands rest).applyReset) ∨
    (∃ cw rest, s.inFlight = none ∧ s.schedule = .commandCut cw :: rest ∧ t = (s.accept cw rest).applyReset) ∨
    (∃ b rest, s.inFlight = none ∧ s.schedule = .writerReady b :: rest ∧
      t = { s.betweenCommands rest with wrReady := b }) ∨
    (s.inFlight.isSome = true ∧ s.wrReady = false ∧ t = s) ∨
    (∃ rest, s.inFlight.isSome = true ∧ s.wrReady = false ∧
      t = State.applyReset { s with schedule := rest }) ∨
    (∃ b rest, s.inFlight.isSome = true ∧ s.wrReady = false ∧ t = { s with schedule := rest, wrReady := b }) := by
  unfold step advance at h
  cases hf : s.inFlight with
  | none =>
    simp only [hf, hostStep] at h
    split at h
    all_goals rename_i hs
    all_goals try (cases h; simp [hs])
    · rename_i cw rest
      simp [hs, h]
    · rename_i k rest
      simp only [setRposTo] at h
      split at h
      · rename_i hk
        cases h
        simp only [State.betweenCommands_inp] at hk
        simp [hs, hk]
      · cases h
  | some cw =>
    simp only [hf] at h
    cases hw : s.wrReady with
    | true => simp only [hw, if_true] at h; simp [h]
    | false =>
      simp only [hw, Bool.false_eq_true, if_false, waitStep] at h
      split at h <;> cases h
      · iterate 11 right
        exact .inl ⟨_, rfl, rfl, rfl⟩
      · iterate 12 right
        exact ⟨_, _, rfl, rfl, by rw [hf]⟩
      · iterate 10 right
        exact .inl ⟨rfl, rfl, rfl⟩

end Sys2Proof.Laws
end

