-- ==== Sys2Proof/Laws/Claims.lean ====
section
/-! SUPPORT. How the terms claims are stated in follow from equal fields, and what the state after an answer says in
them. -/

namespace Sys2Proof.Laws

open Sys2Proof.Machine

theorem keepsInput_of_eq {s t : State} (h : t.inp = s.inp) : KeepsInput s t := by
  simp [KeepsInput, State.inByte, h]

theorem keepsOutput_of_eq {s t : State} (h : t.out = s.out) : KeepsOutput s t := by
  simp [KeepsOutput, State.outByte, h]

theorem keepsSpaces_of_eq {s t : State} (hi : t.inp = s.inp) (hr : t.rpos = s.rpos) (ho : t.out = s.out) :
    KeepsSpaces s t := ⟨keepsInput_of_eq hi, hr, keepsOutput_of_eq ho⟩

theorem responds_after (s : State) (k : Nat) (bs : List Byte) (r : Response) : Responds s (after s k bs r) r := by
  simp [Responds]

theorem keepsInput_after (s : State) (k : Nat) (bs : List Byte) (r : Response) : KeepsInput s (after s k bs r) :=
  keepsInput_of_eq rfl

/-- A command that appends nothing keeps OUT. -/
theorem keepsOutput_after (s : State) (k : Nat) (r : Response) : KeepsOutput s (after s k [] r) :=
  keepsOutput_of_eq (by simp)

/-- A command that appends and consumes nothing keeps both spaces and the cursor. -/
theorem keepsSpaces_after (s : State) (r : Response) : KeepsSpaces s (after s 0 [] r) :=
  keepsSpaces_of_eq rfl rfl (by simp)

theorem drivesNothing_after (s : State) (r : Response) : DrivesNothing (after s 0 [] r) := by simp [DrivesNothing]

/-- An instruction with an answer answers a next state. -/
theorem exec_of_answer {i : Instr} {s : State} {k : Nat} {bs : List Byte} {r : Response}
    (h : answer i s.inp s.rpos = some (k, bs, r)) : exec i s = .next (after s k bs r) :=
  exec_next_iff.mpr ⟨k, bs, r, h, rfl⟩

/-- The check a decode command makes: none, or the fit test of its width (44_narrowing.md R183). -/
def widthFit (w : Option Width) : Nat → Bool :=
  match w with
  | none => fun _ => true
  | some w => fits w

/-- Which answer a decode command gives: the one of its width, on either path (30_encoding.md R75). -/
theorem answer_of_decode {i : Instr} (h : IsDecode i) (inp : List Byte) (rpos : Nat) :
    answer i inp rpos = decodeAnswer (widthFit (decodeWidth i)) inp rpos := by
  cases i <;> first | rfl | cases h

/-- A command that is no decode consumes nothing, whatever IN and RPOS are, and always answers. -/
theorem answer_of_not_decode {i : Instr} (h : ¬IsDecode i) :
    ∃ bs r, ∀ inp rpos, answer i inp rpos = some (0, bs, r) := by
  cases i <;> first
    | exact absurd rfl h
    | exact ⟨_, _, fun _ _ => rfl⟩
    | (simp only [answer]; split <;> exact ⟨_, _, fun _ _ => rfl⟩)

end Sys2Proof.Laws
end

