-- ==== Sys2Proof/Laws/Decode.lean ====
section
/-! SUPPORT. The fields of an assembled word, and the one case analysis of the decoder: which instruction a legal word
spells, said from its fields. -/

namespace Sys2Proof.Laws

/-- The bits of an assembled word (30_encoding.md R70). -/
theorem getLsbD_assemble (op : BitVec 8) (n : BitVec 4) (v : Value) (i : Nat) : (assemble op n v).getLsbD i =
    if i < 64 then v.getLsbD i else if i < 68 then n.getLsbD (i - 64) else op.getLsbD (i - 68) := by
  have h : (assemble op n v).getLsbD i = BitVec.getLsbD (w := 8 + 4 + 64) (op ++ n ++ v) i := rfl
  rw [h, BitVec.getLsbD_append, BitVec.getLsbD_append, Nat.sub_sub]
  by_cases h1 : i < 64
  · simp [h1]
  · by_cases h2 : i < 68
    · simp [h1, h2, show i - 64 < 4 by omega]
    · simp [h1, h2, show ¬ i - 64 < 4 by omega]

@[simp] theorem opField_assemble (op : BitVec 8) (n : BitVec 4) (v : Value) : opField (assemble op n v) = op := by
  apply BitVec.eq_of_getLsbD_eq
  intro i hi
  rw [opField, BitVec.getLsbD_extractLsb', getLsbD_assemble, if_neg (by omega), if_neg (by omega)]
  simp [hi]

@[simp] theorem nField_assemble (op : BitVec 8) (n : BitVec 4) (v : Value) : nField (assemble op n v) = n := by
  apply BitVec.eq_of_getLsbD_eq
  intro i hi
  rw [nField, BitVec.getLsbD_extractLsb', getLsbD_assemble, if_neg (by omega), if_pos (by omega)]
  simp [hi]

@[simp] theorem vField_assemble (op : BitVec 8) (n : BitVec 4) (v : Value) : vField (assemble op n v) = v := by
  apply BitVec.eq_of_getLsbD_eq
  intro i hi
  rw [vField, BitVec.getLsbD_extractLsb', getLsbD_assemble, if_pos (by omega)]
  simp [hi]

/-- The fields determine the word. -/
theorem assemble_fields (cw : CmdWord) : assemble (opField cw) (nField cw) (vField cw) = cw := by
  apply BitVec.eq_of_getLsbD_eq
  intro i hi
  simp only [getLsbD_assemble, opField, nField, vField, BitVec.getLsbD_extractLsb']
  by_cases h1 : i < 64
  · simp [h1]
  · by_cases h2 : i < 68
    · simp [h1, h2, show i - 64 < 4 by omega, show 64 + (i - 64) = i by omega]
    · simp [h1, h2, show i - 68 < 8 by omega, show 68 + (i - 68) = i by omega]

/-- What an OP value spells, given the two operand fields: the decoder's lookup by itself. -/
def spelled (op : BitVec 8) (n : BitVec 4) (v : Value) : Except DecodeError Instr := decodeWord (assemble op n v)

theorem decodeWord_eq_spelled (cw : CmdWord) : decodeWord cw = spelled (opField cw) (nField cw) (vField cw) := by
  rw [spelled, assemble_fields]

end Sys2Proof.Laws
end

