-- ==== Sys2Proof/Laws/PerInstr.lean ====
section
/-! SUPPORT. For every instruction, that the OP value of its word keeps the rules on OP's subfields (30_encoding.md
R72). -/

namespace Sys2Proof.Laws.EncodedOp

/-- The OP value of the word of `i` is well formed, subfield by subfield (R72). -/
def Statement (i : Instr) : Prop := opWellFormed (opField (encode i)) = true

theorem reqlen (v : Value) : Statement (.reqlen v) := by
  rw [Statement, Sys2Proof.encode, opField_assemble]; decide

theorem pack (n : BitVec 4) (v : Value) : Statement (.pack n v) := by
  rw [Statement, Sys2Proof.encode, opField_assemble]; decide

theorem encode (v : Value) : Statement (.encode v) := by
  rw [Statement, Sys2Proof.encode, opField_assemble]; decide

theorem fitchkU8 (v : Value) : Statement (.fitchkU8 v) := by
  rw [Statement, Sys2Proof.encode, opField_assemble]; decide

theorem fitchkU16 (v : Value) : Statement (.fitchkU16 v) := by
  rw [Statement, Sys2Proof.encode, opField_assemble]; decide

theorem fitchkU32 (v : Value) : Statement (.fitchkU32 v) := by
  rw [Statement, Sys2Proof.encode, opField_assemble]; decide

theorem fitchkU64 (v : Value) : Statement (.fitchkU64 v) := by
  rw [Statement, Sys2Proof.encode, opField_assemble]; decide

theorem decode : Statement .decode := by
  rw [Statement, Sys2Proof.encode, opField_assemble]; decide

theorem decodeF : Statement .decodeF := by
  rw [Statement, Sys2Proof.encode, opField_assemble]; decide

theorem decodeAsU8 : Statement .decodeAsU8 := by
  rw [Statement, Sys2Proof.encode, opField_assemble]; decide

theorem decodeAsU16 : Statement .decodeAsU16 := by
  rw [Statement, Sys2Proof.encode, opField_assemble]; decide

theorem decodeAsU32 : Statement .decodeAsU32 := by
  rw [Statement, Sys2Proof.encode, opField_assemble]; decide

theorem decodeAsU64 : Statement .decodeAsU64 := by
  rw [Statement, Sys2Proof.encode, opField_assemble]; decide

theorem decodeAsU8F : Statement .decodeAsU8F := by
  rw [Statement, Sys2Proof.encode, opField_assemble]; decide

theorem decodeAsU16F : Statement .decodeAsU16F := by
  rw [Statement, Sys2Proof.encode, opField_assemble]; decide

theorem decodeAsU32F : Statement .decodeAsU32F := by
  rw [Statement, Sys2Proof.encode, opField_assemble]; decide

theorem decodeAsU64F : Statement .decodeAsU64F := by
  rw [Statement, Sys2Proof.encode, opField_assemble]; decide

end Sys2Proof.Laws.EncodedOp
end

