-- ==== Sys2Proof/Laws/Ports.lean ====
section
/-! SUPPORT. The 72-bit ports: a lane is a byte of the list the port was made from, and the window algebra is `le` of
lanes (10_state.md R30, 43_decoder.md R167). -/

namespace Sys2Proof.Laws

open Sys2Proof.Machine

/-- Byte i of a little-endian value. -/
theorem le_div_mod (bs : List Byte) : ∀ i, le bs / 2 ^ (8 * i) % 256 = ((bs[i]?).getD 0).toNat := by
  induction bs with
  | nil => simp
  | cons b bs ih =>
    intro i
    have hb := b.isLt
    cases i with
    | zero => simp; omega
    | succ i =>
      have hp : 2 ^ (8 * (i + 1)) = 256 * 2 ^ (8 * i) := by
        rw [show 8 * (i + 1) = 8 + 8 * i by ring, Nat.pow_add]
      rw [le_cons, hp, ← Nat.div_div_eq_div_mul, Nat.add_mul_div_left _ _ (by omega), Nat.div_eq_of_lt hb, Nat.zero_add,
        ih i]
      simp

/-- A 72-bit port made from at most nine bytes holds their little-endian value. -/
theorem port_toNat {bs : List Byte} (h : bs.length ≤ 9) : (BitVec.ofNat 72 (le bs)).toNat = le bs := by
  have hl := le_lt bs
  have hp : 2 ^ (8 * bs.length) ≤ 2 ^ 72 := Nat.pow_le_pow_right (by omega) (by omega)
  rw [BitVec.toNat_ofNat, Nat.mod_eq_of_lt (by omega)]

/-- Lane i of such a port is byte i, and 0 beyond the last byte (10_state.md R30). -/
theorem portLane_ofNat {bs : List Byte} (h : bs.length ≤ 9) (i : Nat) :
    portLane (BitVec.ofNat 72 (le bs)) i = (bs[i]?).getD 0 := by
  apply BitVec.eq_of_toNat_eq
  rw [portLane, BitVec.extractLsb'_toNat, port_toNat h, Nat.shiftRight_eq_div_pow]
  exact le_div_mod bs i

theorem le_take (bs : List Byte) (k : Nat) (h : k ≤ bs.length) : le (bs.take k) = le bs % 2 ^ (8 * k) := by
  have hs := le_append (bs.take k) (bs.drop k)
  have hl := le_lt (bs.take k)
  rw [List.take_append_drop, List.length_take, Nat.min_eq_left h] at hs
  rw [List.length_take, Nat.min_eq_left h] at hl
  rw [hs, Nat.add_mul_mod_self_left, Nat.mod_eq_of_lt hl]

/-- The nine lanes of `rd_window`, for any padding. -/
theorem windowWith_toNat (pad : Nat → Byte) (inp : List Byte) (rpos : Nat) : (windowWith pad inp rpos).toNat =
    le ((List.range 9).map (windowLane pad inp rpos)) := port_toNat (by simp)

theorem portLane_windowWith (pad : Nat → Byte) (inp : List Byte) (rpos : Nat) {i : Nat} (h : i < 9) :
    portLane (windowWith pad inp rpos) i = windowLane pad inp rpos i := by
  rw [windowWith, portLane_ofNat (by simp)]
  simp [h]

/-- The lanes that hold bytes of the input are those bytes. -/
theorem lanes_take (pad : Nat → Byte) (inp : List Byte) (rpos : Nat) {k : Nat} (h9 : k ≤ 9)
    (h : k ≤ inp.length - rpos) :
    ((List.range 9).map (windowLane pad inp rpos)).take k = (view inp rpos).take k := by
  apply List.ext_getElem
  · simp; omega
  · intro i h1 h2
    simp only [List.length_take, List.length_map, List.length_range] at h1
    have hv : i < (view inp rpos).length := by rw [length_view]; omega
    simp [windowLane, List.getElem?_eq_getElem hv]

/-- The window value of a form whose bytes all remain (43_decoder.md R167). -/
theorem windowValue_eq {pad : Nat → Byte} {inp : List Byte} {rpos : Nat} {b0 : Byte} {rest : List Byte}
    (hv : view inp rpos = b0 :: rest) (hn : hlen b0 ≤ rest.length + 1) :
    windowValue (windowWith pad inp rpos) (hlen b0) = formval b0 (rest.take (hlen b0 - 1)) := by
  have hl := length_view inp rpos
  have hr := hlen_range b0
  rw [hv, List.length_cons] at hl
  have hlane : portLane (windowWith pad inp rpos) 0 = b0 := by
    rw [portLane_windowWith _ _ _ (by omega), windowLane, hv]; rfl
  have hmod : (windowWith pad inp rpos).toNat / 2 ^ 8 % 2 ^ (8 * (hlen b0 - 1)) = le (rest.take (hlen b0 - 1)) := by
    have ht := lanes_take pad inp rpos hr.2 (by omega)
    rw [hv, show hlen b0 = hlen b0 - 1 + 1 by omega, List.take_succ_cons] at ht
    have hle := le_take ((List.range 9).map (windowLane pad inp rpos)) (hlen b0 - 1 + 1) (by simp; omega)
    rw [ht, le_cons, ← windowWith_toNat] at hle
    have hp : 2 ^ (8 * (hlen b0 - 1 + 1)) = 2 ^ 8 * 2 ^ (8 * (hlen b0 - 1)) := by
      rw [← Nat.pow_add]; congr 1; ring
    have hb := b0.isLt
    rw [hp, Nat.mod_mul] at hle
    omega
  have htl : (rest.take (hlen b0 - 1)).length + 1 = hlen b0 := by simp; omega
  simp only [windowValue, formval, htl, Config.escapeLen, Nat.shiftRight_eq_div_pow, hlane, hmod]
  split
  · rename_i h9
    rw [h9] at hmod
    rw [BitVec.extractLsb'_toNat, Nat.shiftRight_eq_div_pow, h9, ← hmod]
  · rfl

end Sys2Proof.Laws
end

