-- ==== Sys2Proof/Tests/Slice0.lean ====
section
/-! SUPPORT. Tests on fixed values taken from the tables of spec/, and for every obligation with hypotheses a state and
operands that meet them. -/

open Sys2Proof Sys2Proof.Machine Sys2Proof.Claims

namespace Sys2Proof.Tests

/-! ### WellFormed: one ill-formed OP for each check (30_encoding.md R72, 95_test_vectors.md V7) -/

theorem test_wellformed_accepts : opWellFormed 0x6B#8 = true ∧ opWellFormed 0x58#8 = true := by decide

/-- Classes 0 and 7 hold no opcode. -/
theorem test_wellformed_class : opWellFormed 0x00#8 = false ∧ opWellFormed 0x70#8 = false := by decide

/-- OP[2] is reserved. -/
theorem test_wellformed_reserved_bit : opWellFormed 0x24#8 = false ∧ opWellFormed 0x64#8 = false := by decide

/-- F in a class with no fast path. -/
theorem test_wellformed_fast : opWellFormed 0x18#8 = false ∧ opWellFormed 0x48#8 = false := by decide

/-- W in a class with no width. -/
theorem test_wellformed_width : opWellFormed 0x11#8 = false ∧ opWellFormed 0x53#8 = false := by decide

/-! ### One written-out word for every operation (30_encoding.md R70, R75; 95_test_vectors.md V1 to V6) -/

theorem test_decode_encoder_words :
    decodeWord 0x1000000000000004000#76 = .ok (.reqlen 16384) ∧
    decodeWord 0x202000000000000012C#76 = .ok (.pack 2 300) ∧
    decodeWord 0x3000000000000000080#76 = .ok (.encode 128) := by decide

theorem test_decode_fitchk_words :
    decodeWord 0x40000000000000000FF#76 = .ok (.fitchkU8 255) ∧
    decodeWord 0x410000000000000FFFF#76 = .ok (.fitchkU16 65535) ∧
    decodeWord 0x4200000000100000000#76 = .ok (.fitchkU32 4294967296) ∧
    decodeWord 0x430FFFFFFFFFFFFFFFF#76 = .ok (.fitchkU64 0xFFFFFFFFFFFFFFFF) := by decide

theorem test_decode_decoder_words :
    decodeWord 0x5000000000000000000#76 = .ok .decode ∧ decodeWord 0x5800000000000000000#76 = .ok .decodeF := by decide

theorem test_decode_narrowing_words :
    decodeWord 0x6000000000000000000#76 = .ok .decodeAsU8 ∧ decodeWord 0x6100000000000000000#76 = .ok .decodeAsU16 ∧
    decodeWord 0x6200000000000000000#76 = .ok .decodeAsU32 ∧ decodeWord 0x6300000000000000000#76 = .ok .decodeAsU64 ∧
    decodeWord 0x6800000000000000000#76 = .ok .decodeAsU8F ∧ decodeWord 0x6900000000000000000#76 = .ok .decodeAsU16F ∧
    decodeWord 0x6A00000000000000000#76 = .ok .decodeAsU32F ∧
    decodeWord 0x6B00000000000000000#76 = .ok .decodeAsU64F := by decide

/-- The words of 95_test_vectors.md V7. -/
theorem test_decode_rejects_by_name :
    decodeWord 0x0F00000000000000000#76 = .error (.illegalOp 0x0F#8) ∧
    decodeWord 0x242000000000000012C#76 = .error (.illegalOp 0x24#8) ∧
    decodeWord 0x5C00000000000000000#76 = .error (.illegalOp 0x5C#8) ∧
    decodeWord 0x6C00000000000000000#76 = .error (.illegalOp 0x6C#8) := by decide

/-- The encoder writes 0 in the fields an operation does not read (30_encoding.md R82). -/
theorem test_encode_words : encode (.pack 2 300) = 0x202000000000000012C#76 ∧
    encode .decodeAsU32F = 0x6A00000000000000000#76 := by decide

/-- The table's numbering, in 76 bits and in whole bytes; a number beyond the word is no command. -/
theorem test_table_words : decodeTableWord 76 0x300000000000000012C = some (.encode 300) ∧
    decodeTableWord 80 0x300000000000000012C = some (.encode 300) ∧
    decodeTableWord 76 0x700000000000000012C = none ∧ decodeTableWord 80 0x1300000000000000012C = none := by decide

/-! ### Responses, from the tables of 95_test_vectors.md -/

/-- The launch state with these spaces (10_state.md R33). -/
def launch (inp : List Byte) (rpos : Nat) (out : List Byte) : State :=
  { State.reset with inp := inp, rpos := rpos, out := out }

/-- Whether a step or a command gives this response and leaves RPOS and OUT so. -/
def gives (o : Host.Outcome State Fault Refusal) (r : Response) (rpos : Nat) (out : List Byte) : Bool :=
  match o with
  | .next t => t.responses == [r] && t.rpos == rpos && t.out == out
  | .fault _ => false
  | .refused _ => false

/-- The output ports after a step or a command. -/
def portsOf (o : Host.Outcome State Fault Refusal) : Option Ports :=
  match o with
  | .next t => some t.ports
  | .fault _ => none
  | .refused _ => none

theorem test_reqlen : gives (exec (.reqlen 127) (launch [] 0 [])) ⟨.ok, 1, 0⟩ 0 [] = true ∧
    gives (exec (.reqlen 128) (launch [] 0 [])) ⟨.ok, 2, 0⟩ 0 [] = true := by decide

theorem test_reqlen_escape : gives (exec (.reqlen 0x00FFFFFFFFFFFFFF) (launch [] 0 [])) ⟨.ok, 8, 0⟩ 0 [] = true ∧
    gives (exec (.reqlen 0x0100000000000000) (launch [] 0 [])) ⟨.ok, 9, 0⟩ 0 [] = true := by decide

theorem test_pack_non_minimal :
    gives (exec (.pack 4 300) (launch [] 0 [0xAA])) ⟨.ok, 4, 0⟩ 0 [0xAA, 0xE0, 0x2C, 0x01, 0x00] = true := by decide

theorem test_pack_badlen : gives (exec (.pack 8 0x0100000000000000) (launch [] 0 [0xAA])) ⟨.badlen, 0, 0⟩ 0 [0xAA] = true ∧
    gives (exec (.pack 10 5) (launch [] 0 [0xAA])) ⟨.badlen, 0, 0⟩ 0 [0xAA] = true := by decide

theorem test_encode_appends :
    gives (exec (.encode 300) (launch [] 0 [0xAA, 0xBB])) ⟨.ok, 2, 0⟩ 0 [0xAA, 0xBB, 0x81, 0x2C] = true := by decide

/-- 42_encoder.md R135: `wr_count` 9 and `wr_bytes` 0x0123456789ABCDEFFF. -/
theorem test_encode_ports : (portsOf (exec (.encode 0x0123456789ABCDEF) (launch [] 0 []))).map
    (fun p => (p.wrValid, p.wrCount, p.wrBytes)) = some (true, 9, 0x0123456789ABCDEFFF) := by decide

theorem test_fitchk_u8 : gives (exec (.fitchkU8 255) (launch [] 0 [])) ⟨.ok, 0, 255⟩ 0 [] = true ∧
    gives (exec (.fitchkU8 256) (launch [] 0 [])) ⟨.range, 0, 0⟩ 0 [] = true := by decide

theorem test_fitchk_u16 : gives (exec (.fitchkU16 65535) (launch [] 0 [])) ⟨.ok, 0, 65535⟩ 0 [] = true ∧
    gives (exec (.fitchkU16 65536) (launch [] 0 [])) ⟨.range, 0, 0⟩ 0 [] = true := by decide

theorem test_fitchk_u32 : gives (exec (.fitchkU32 4294967295) (launch [] 0 [])) ⟨.ok, 0, 4294967295⟩ 0 [] = true ∧
    gives (exec (.fitchkU32 4294967296) (launch [] 0 [])) ⟨.range, 0, 0⟩ 0 [] = true := by decide

theorem test_fitchk_u64 : gives (exec (.fitchkU64 0xFFFFFFFFFFFFFFFF) (launch [] 0 []))
    ⟨.ok, 0, 0xFFFFFFFFFFFFFFFF⟩ 0 [] = true := by decide

theorem test_decode_at_cursor :
    gives (exec .decode (launch [0x00, 0x81, 0x2C] 1 [])) ⟨.ok, 2, 300⟩ 3 [] = true := by decide

theorem test_decode_truncated :
    gives (exec .decode (launch [0xFF, 0, 0, 0, 0, 0, 0, 0] 0 [])) ⟨.truncated, 0, 0⟩ 0 [] = true := by decide

theorem test_decode_f_window :
    gives (exec .decodeF (launch [0x81, 0x2C, 0, 0, 0, 0, 0, 0, 0, 0] 0 [])) ⟨.ok, 2, 300⟩ 2 [] = true := by decide

theorem test_decode_f_escape : gives (exec .decodeF (launch [0xFF, 0xEF, 0xCD, 0xAB, 0x89, 0x67, 0x45, 0x23, 0x01] 0 []))
    ⟨.ok, 9, 0x0123456789ABCDEF⟩ 9 [] = true := by decide

theorem test_decode_as_u8 : gives (exec .decodeAsU8 (launch [0x81, 0x2C] 0 [])) ⟨.range, 2, 0⟩ 2 [] = true ∧
    gives (exec .decodeAsU8 (launch [0x80, 0xC8] 0 [])) ⟨.ok, 2, 200⟩ 2 [] = true := by decide

theorem test_decode_as_u16 : gives (exec .decodeAsU16 (launch [0xC0, 0xFF, 0xFF] 0 [])) ⟨.ok, 3, 65535⟩ 3 [] = true ∧
    gives (exec .decodeAsU16 (launch [0xC1, 0x00, 0x00] 0 [])) ⟨.range, 3, 0⟩ 3 [] = true := by decide

theorem test_decode_as_u32 :
    gives (exec .decodeAsU32 (launch [0xF0, 0xEF, 0xBE, 0xAD, 0xDE] 0 [])) ⟨.ok, 5, 3735928559⟩ 5 [] = true ∧
    gives (exec .decodeAsU32 (launch [0xF1, 0, 0, 0, 0] 0 [])) ⟨.range, 5, 0⟩ 5 [] = true := by decide

theorem test_decode_as_u64 :
    gives (exec .decodeAsU64 (launch [0xF1, 0, 0, 0, 0] 0 [])) ⟨.ok, 5, 4294967296⟩ 5 [] = true := by decide

theorem test_decode_as_u8_f :
    gives (exec .decodeAsU8F (launch [0x81, 0x2C, 0, 0, 0, 0, 0, 0, 0] 0 [])) ⟨.range, 2, 0⟩ 2 [] = true := by decide

theorem test_decode_as_u16_f :
    gives (exec .decodeAsU16F (launch [0xC0, 0xFF, 0xFF] 0 [])) ⟨.ok, 3, 65535⟩ 3 [] = true := by decide

theorem test_decode_as_u32_f :
    gives (exec .decodeAsU32F (launch [0xFF, 0, 0, 0, 0, 0, 0, 0, 1] 0 [])) ⟨.range, 9, 0⟩ 9 [] = true := by decide

theorem test_decode_as_u64_f :
    gives (exec .decodeAsU64F (launch [0xFF, 0, 0, 0, 0, 0, 0, 0] 0 [])) ⟨.truncated, 0, 0⟩ 0 [] = true := by decide

/-! ### The wire format (95_test_vectors.md V8) -/

theorem test_hlen : [0x00#8, 0x7F#8, 0x80#8, 0xBF#8, 0xC0#8, 0xF7#8, 0xF8#8, 0xFD#8, 0xFE#8, 0xFF#8].map hlen =
    [1, 1, 2, 2, 3, 5, 6, 7, 8, 9] := by decide

theorem test_form : form 3 300 = [0xC0#8, 0x2C#8, 0x01#8] ∧
    form 8 0x00FEDCBA98765432 = [0xFE#8, 0x32#8, 0x54#8, 0x76#8, 0x98#8, 0xBA#8, 0xDC#8, 0xFE#8] ∧
    formval 0x81#8 [0x2C#8] = 300 := by decide

/-! ### Steps -/

/-- The state in which the host presents this word and then does the rest. -/
def presents (cw : CmdWord) (rest : List Event) (s : State) : State := { s with schedule := .command cw :: rest }

/-- A presented word runs as the first instruction after reset; a word that spells no operation answers ILLEGAL. -/
theorem test_step_runs : gives (step (State.reset.withFetchWord 76 0x300000000000000012C)) ⟨.ok, 2, 0⟩ 0 [0x81, 0x2C] = true ∧
    gives (step (State.reset.withFetchWord 80 0x300000000000000012C)) ⟨.ok, 2, 0⟩ 0 [0x81, 0x2C] = true ∧
    gives (step (State.reset.withFetchWord 76 0x2400000000000000000)) ⟨.illegal, 0, 0⟩ 0 [] = true := by decide

/-- 20_memory.md R51: with `wr_ready` 0 the append stands on the ports and nothing else happens; a command that appends
nothing does not wait. -/
theorem test_step_waits : gives (step (presents 0x5000000000000000000#76 []
      { launch [0x05] 0 [] with wrReady := false })) ⟨.ok, 1, 5⟩ 1 [] = true ∧
    (portsOf (step (presents 0x300000000000000012C#76 [] { launch [] 0 [] with wrReady := false }))).map
      (fun p => (p.cmdReady, p.wrValid, p.wrBytes, p.rspValid)) = some (false, true, 0x2C81, false) := by decide

/-- The same of PACK: `PACK 2, 5` waits with `80 05` presented, and a PACK that answers BADLEN does not wait. -/
theorem test_step_waits_pack : (portsOf (step (presents 0x2020000000000000005#76 []
      { launch [] 0 [] with wrReady := false }))).map
      (fun p => (p.cmdReady, p.wrValid, p.wrBytes, p.rspValid)) = some (false, true, 0x0580, false) ∧
    gives (step (presents 0x20A0000000000000005#76 [] { launch [] 0 [0xAA] with wrReady := false }))
      ⟨.badlen, 0, 0⟩ 0 [0xAA] = true := by decide

/-- The Reader's ports for `IN = C0 00 40` (95_test_vectors.md V4). -/
theorem test_reader_ports : decPorts 3 0x4000C0#72 = some (3, 16384) ∧ decPorts 2 0xFF00C0#72 = none := by decide

/-- The host's ports: a presented word; nothing presented, and `rst_n` low, when a reset ends a wait. -/
theorem test_host_ports : presentedWord (presents 0x5000000000000000000#76 [] State.reset) = some 0x5000000000000000000#76 ∧
    rstN (presents 0x5000000000000000000#76 [] State.reset) = true ∧
    rstN { State.reset with inFlight := some 0x3000000000000000000#76, wrReady := false,
                            schedule := [.inFromOut, .reset] } = false := by decide

/-! ### Witnesses: the hypotheses of each obligation are met -/

/-- A waiting ENCODE 300. -/
def waiting (ready : Bool) (schedule : List Event) : State :=
  { State.reset with inFlight := some (encode (.encode 300)), wrReady := ready, schedule := schedule }

theorem witness_UnreadFieldsHaveNoEffect :
    (opField 0x50F0000000000000001#76 = opField 0x5000000000000000000#76 ∧ opField 0x50F0000000000000001#76 ≠ 0x20#8 ∧
      opField 0x50F0000000000000001#76 ∉ readsV) ∧
    (opField 0x3050000000000000001#76 = opField 0x3000000000000000001#76 ∧
      vField 0x3050000000000000001#76 = vField 0x3000000000000000001#76 ∧ opField 0x3050000000000000001#76 ≠ 0x20#8) := by
  decide

theorem witness_ReassembledWordKeepsReadFields : decodeWord 0x50FFFFFFFFFFFFFFFFF#76 = .ok .decode ∧
    decodeWord 0x20F0000000000000001#76 = .ok (.pack 15 1) := by decide

theorem witness_StepRunsTheDecodedCommand :
    (presents 0x5000000000000000000#76 [] State.reset).inFlight = none ∧
    (presents 0x5000000000000000000#76 [] State.reset).schedule = [.command 0x5000000000000000000#76] ∧
    (presents 0x5000000000000000000#76 [] State.reset).wrReady = true ∧
    decodeWord 0x5000000000000000000#76 = .ok .decode := by decide

/-- The other branch of its hypothesis: with `wr_ready` 0, a decode, and a PACK at each BADLEN boundary. -/
theorem witness_StepRunsTheDecodedCommand_not_ready :
    (presents 0x5000000000000000000#76 [] { State.reset with wrReady := false }).wrReady = false ∧
    AppendsNothing .decode ∧ AppendsNothing (.pack 0 0) ∧ AppendsNothing (.pack 10 0) ∧
    AppendsNothing (.pack 8 0x0100000000000000) := by
  refine ⟨rfl, ⟨fun _ h => (nomatch h), fun _ _ h => (nomatch h)⟩, ⟨fun _ h => (nomatch h), ?_⟩,
    ⟨fun _ h => (nomatch h), ?_⟩, ⟨fun _ h => (nomatch h), ?_⟩⟩
  · rintro n v ⟨⟩
    exact .inl rfl
  · rintro n v ⟨⟩
    exact .inr (.inl (by decide))
  · rintro n v ⟨⟩
    exact .inr (.inr (by decide))

theorem witness_IllegalWordsAnswerIllegal :
    (presents 0x6C00000000000000000#76 [] State.reset).inFlight = none ∧
    (presents 0x6C00000000000000000#76 [] State.reset).schedule = [.command 0x6C00000000000000000#76] ∧
    opField 0x6C00000000000000000#76 ∉ legalOps ∧ opField 0x0FF0000000000000000#76 ∉ legalOps := by decide

/-- ENCODE, PACK at the largest value of its longest short form, and PACK of the escape length. -/
theorem witness_CommandWaitsForTheWriter :
    let s (cw : CmdWord) : State := presents cw [] { State.reset with wrReady := false }
    (s 0x300000000000000012C#76).inFlight = none ∧ (s 0x300000000000000012C#76).wrReady = false ∧
    decodeWord 0x300000000000000012C#76 = .ok (.encode 300) ∧
    decodeWord 0x20800FFFFFFFFFFFFFF#76 = .ok (.pack 8 0x00FFFFFFFFFFFFFF) ∧ 1 ≤ (8#4).toNat ∧
    (0x00FFFFFFFFFFFFFF#64).toNat < 2 ^ (7 * (8#4).toNat) ∧
    decodeWord 0x2090000000000000005#76 = .ok (.pack 9 5) ∧ (9#4).toNat ≤ 9 ∧ ¬((9#4).toNat ≤ 8) := by decide

theorem witness_WaitEndsOnlyByWriterOrReset :
    (waiting true []).inFlight = some (encode (.encode 300)) ∧ (waiting true []).wrReady = true ∧
    decodeWord (encode (.encode 300)) = .ok (.encode 300) ∧
    (waiting false [.inFromOut]).wrReady = false ∧
    (∀ e ∈ (waiting false [.inFromOut]).schedule, isHostAction e = true) ∧
    (waiting false [.setRpos 0, .writerReady true, .reset]).schedule =
      [.setRpos 0] ++ .writerReady true :: [.reset] ∧
    (waiting false [.reset]).schedule = [] ++ .reset :: [] ∧ isHostAction (.setRpos 0) = true := by decide

theorem witness_ResetAbandonsTheCommandWhole :
    ({ State.reset with schedule := [.reset] }.inFlight = none ∧
      { State.reset with schedule := [.reset] }.schedule = [.reset]) ∧
    ({ State.reset with schedule := [.commandCut 0x300000000000000012C#76] }.schedule =
      [.commandCut 0x300000000000000012C#76]) ∧
    (waiting false [.reset]).inFlight.isSome = true ∧ (waiting false [.reset]).wrReady = false ∧
    (waiting false [.reset]).schedule = [.reset] := by decide

/-- The four directives, `.rpos` at its largest legal position. -/
theorem witness_DirectivesRebindTheSpaces : ∃ s1 s2 s3 s4 : State,
    (s1.inFlight = none ∧ s1.schedule = [.bindIn [0x05]]) ∧
    (s2.inFlight = none ∧ s2.schedule = [.setRpos 2] ∧ 2 ≤ s2.inp.length ∧ s2.inp.length = 2) ∧
    (s3.inFlight = none ∧ s3.schedule = [.bindOut []]) ∧ (s4.inFlight = none ∧ s4.schedule = [.inFromOut]) :=
  ⟨{ launch [] 0 [] with schedule := [.bindIn [0x05]] }, { launch [0x00, 0x01] 0 [] with schedule := [.setRpos 2] },
    { launch [] 0 [0xAA] with schedule := [.bindOut []] }, { launch [] 0 [0xAA] with schedule := [.inFromOut] }, by decide⟩

theorem witness_CursorOutsideInputIsRefused : ∃ s : State,
    s.inFlight = none ∧ s.schedule = [.setRpos 3] ∧ s.inp.length < 3 ∧ s.inp.length = 2 :=
  ⟨{ launch [0x00, 0x01] 0 [] with schedule := [.setRpos 3] }, by decide⟩

theorem witness_ReqlenClosedFormAndThresholds : (18446744073709551615 : Nat) < 2 ^ 64 ∧ reqlen 18446744073709551615 = 9 ∧
    reqlen 16383 = 2 ∧ reqlen 16384 = 3 := by decide

theorem witness_ReqlenIsMonotoneFitsAndIsMinimal : (72057594037927935 : Nat) < 2 ^ 64 ∧ reqlen 72057594037927935 ≤ 8 ∧
    7 < reqlen 72057594037927935 ∧ (127 : Nat) ≤ 128 ∧ (128 : Nat) < 2 ^ 64 ∧ bitlen 5 ≤ bitlen 4 := by decide

/-- The four branches at the values where they meet. -/
theorem witness_PackAppendsItsFormOrAnswersBadlen : (10 ≤ (10#4).toNat) ∧
    ((8#4).toNat ≤ 8 ∧ 2 ^ (7 * (8#4).toNat) ≤ (0x0100000000000000#64).toNat) ∧
    ¬(2 ^ (7 * (8#4).toNat) ≤ (0x00FFFFFFFFFFFFFF#64).toNat) ∧ ¬((9#4).toNat ≤ 8) := by decide

theorem witness_EncodeEscapesExactlyLargeValues : formDefined 9 (0x0100000000000000#64).toNat = true ∧
    2 ^ 56 ≤ (0x0100000000000000#64).toNat ∧ formDefined 8 (0x00FFFFFFFFFFFFFF#64).toNat = true := by decide

theorem witness_AppendsStandOnTheWriterPort :
    (∃ t, exec (.pack 9 5) (launch [] 0 []) = .next t ∧ formDefined (9#4).toNat (5#64).toNat = true) ∧
    (∃ t, exec (.pack 1 128) (launch [] 0 []) = .next t ∧ ¬formDefined (1#4).toNat (128#64).toNat = true) ∧
    ∃ t, exec (.encode 128) (launch [] 0 []) = .next t := ⟨⟨_, rfl, by decide⟩, ⟨_, rfl, by decide⟩, ⟨_, rfl⟩⟩

theorem witness_FitsMeansUpperBitsZero : (18446744073709551615 : Nat) < 2 ^ 64 ∧ fits .u8 255 = true ∧
    fits .u8 256 = false := by decide

/-- A complete form with exactly the bytes it needs, at length 8 and at length 9. -/
theorem witness_DecodeReadsTheFormAtTheCursor :
    ((launch [0x00, 0xFE, 0, 0, 0, 0, 0, 0, 2] 1 []).inByte 1 = some 0xFE#8 ∧ hlen 0xFE#8 = 9 - 1) ∧
    ((launch [0xFF, 0, 0, 0, 0, 0, 0, 0, 1] 0 []).inByte 0 = some 0xFF#8 ∧ hlen 0xFF#8 = 9 - 0) := by decide

/-- The three cases of an incomplete form. -/
theorem witness_DecodeTruncates : Incomplete (launch [0x05] 1 []) ∧ CursorInside (launch [0x05] 1 []) ∧
    Incomplete (launch [0xFF, 0, 0, 0, 0, 0, 0, 0] 0 []) ∧ CursorInside (launch [0xFF, 0, 0, 0, 0, 0, 0, 0] 0 []) ∧
    Incomplete (launch [0xC0, 0x00] 0 []) ∧ CursorInside (launch [0xC0, 0x00] 0 []) :=
  ⟨.inl rfl, by decide, .inr (.inl ⟨rfl, by decide⟩), by decide,
    .inr (.inr ⟨0xC0#8, rfl, by decide, by decide⟩), by decide⟩

theorem witness_FastDecodeReadsTheFormAtTheCursor : CursorInside (launch [0x05, 0, 0, 0, 0, 0, 0, 0, 0] 0 []) ∧
    9 ≤ (launch [0x05, 0, 0, 0, 0, 0, 0, 0, 0] 0 []).inp.length - 0 := by decide

/-- On both sides of the bound of the narrowest width. -/
theorem witness_NarrowDecodesConsumeThenCheck : (launch [0x81, 0x00] 0 []).inByte 0 = some 0x81#8 ∧ hlen 0x81#8 = 2 ∧
    formval 0x81#8 [0x00#8] = 256 ∧ formval 0x80#8 [0xFF#8] = 255 := by decide

theorem witness_TruncatedExactlyWhenIncomplete : IsDecode .decodeAsU8F ∧ CursorInside (launch [0x05] 1 []) := by decide

theorem witness_NarrowDecodeIsDecodeThenFitchk : CursorInside (launch [0x81, 0x2C] 0 []) ∧
    ((portsOf (exec .decode (launch [0x81, 0x2C] 0 []))).map (fun p => p.rspStatus) = some (statusCode .ok)) ∧
    CursorInside (launch [0x81] 0 []) ∧
    ((portsOf (exec .decode (launch [0x81] 0 []))).map (fun p => p.rspStatus) = some (statusCode .truncated)) := by decide

/-- A pair of the table (EncodeThenNarrowDecode,
NarrowDecodeIsDecodeThenFitchk). -/
theorem witness_EncodeThenNarrowDecode : ∃ p, p ∈ narrowings ∧ p.1 = .decodeAsU16F :=
  ⟨(.decodeAsU16F, .fitchkU16, 65535), by simp [narrowings], rfl⟩

theorem witness_NarrowResultsLeaveUpperBitsZero : decodeWidth .decodeAsU8 = some .u8 ∧
    ∃ t, exec .decodeAsU8 (launch [0x80, 0xFF] 0 []) = .next t ∧ t.ports.rspStatus = statusCode .ok := ⟨rfl, _, rfl, rfl⟩

theorem witness_DecodesDriveConsumeAndLength : IsDecode .decodeF ∧
    (∃ t, exec .decodeF (launch [0xC0, 0x00, 0x40] 0 []) = .next t) ∧
    ∃ t, exec .decodeF (launch [0xC0, 0x00] 0 []) = .next t ∧ t.ports.rspStatus = statusCode .truncated :=
  ⟨rfl, ⟨_, rfl⟩, _, rfl, rfl⟩

theorem witness_DecodeOutsideInputIsRefused : IsDecode .decode ∧ ¬CursorInside (launch [0x05] 2 []) := by decide

theorem witness_FormBitsAreAsLaidOut : (72057594037927935 : Nat) < 2 ^ (7 * 8) ∧ (127 : Nat) < 2 ^ (7 * 1) ∧
    (18446744073709551615 : Nat) < 2 ^ 64 ∧ (8 : Nat) < 9 := by decide

theorem witness_DecodingInvertsForming : formDefined 8 72057594037927935 = true ∧
    formDefined 9 18446744073709551615 = true ∧ formDefined 1 0 = true := by decide

theorem witness_DecodedBytesAreTheFormOfTheirValue : dec [0x80#8, 0x05#8] 0 = some (2, 5) ∧
    dec [0x00#8, 0x81#8, 0x2C#8] 1 = some (2, 300) := by decide

theorem witness_EveryFormIsAcceptedAnywhere : formDefined 9 5 = true ∧
    (launch ([0xAA] ++ form 9 5 ++ [0xBB]) 1 []).inp = [0xAA#8] ++ form 9 5 ++ [0xBB#8] ∧
    (launch ([0xAA] ++ form 9 5 ++ [0xBB]) 1 []).rpos = [0xAA#8].length := by decide

theorem witness_PackedFormsDecodeBack : reqlen (5#64).toNat ≤ (9#4).toNat ∧ (9#4).toNat ≤ 9 ∧
    reqlen (128#64).toNat ≤ (2#4).toNat := by decide

theorem witness_StreamsDecodeToTheirValues : (launch [0x00, 0x81, 0x2C] 0 []).rpos ≤ (launch [0x00, 0x81, 0x2C] 0 []).inp.length ∧
    (launch [0x00, 0x81, 0x2C] 0 []).inp.drop 0 =
      [0#64, 300#64].flatMap (fun v => form (reqlen v.toNat) v.toNat) := by decide

/-- A launch state meets the invariant and takes a step; so does a state that waits for the Writer. -/
theorem witness_StepKeepsTheInvariant : State.Inv (presents 0x300000000000000012C#76 [] (launch [0x05] 1 [0xAA])) ∧
    (∃ t, step (presents 0x300000000000000012C#76 [] (launch [0x05] 1 [0xAA])) = .next t) :=
  ⟨by decide, _, rfl⟩

theorem witness_StepsStopOnlyAtABadDirective :
    State.Inv { launch [0x05] 0 [] with schedule := [.setRpos 1] } ∧
    ∀ k rest, { launch [0x05] 0 [] with schedule := [.setRpos 1] }.schedule = .setRpos k :: rest →
      k ≤ (launch [0x05] 0 []).inp.length := by
  refine ⟨by decide, fun k rest h => ?_⟩
  cases h
  decide

theorem inputWithinAW_of_one_byte (b : Byte) (rpos : Nat) (out : List Byte) : InputWithinAW (launch [b] rpos out) :=
  Nat.one_lt_two_pow (Nat.succ_ne_zero _)

theorem witness_CommandsKeepCursorInputAndOldOutput : CursorInside (launch [0x05] 0 [0xAA]) ∧
    (∃ t, exec .decode (launch [0x05] 0 [0xAA]) = .next t) ∧ 0 < (launch [0x05] 0 [0xAA]).out.length ∧
    InputWithinAW (launch [0x05] 0 [0xAA]) :=
  ⟨by decide, ⟨_, rfl⟩, by decide, inputWithinAW_of_one_byte _ _ _⟩

theorem witness_OnlyDecodesMoveTheCursorOnlyEncodersAppend : (∃ t, exec (.fitchkU8 5) (launch [] 0 []) = .next t) ∧
    ¬IsDecode (.fitchkU8 5) ∧ (∀ n v, Instr.fitchkU8 5 ≠ .pack n v) ∧ ∀ v, Instr.fitchkU8 5 ≠ .encode v :=
  ⟨⟨_, rfl⟩, by decide, fun _ _ h => (nomatch h), fun _ h => (nomatch h)⟩

theorem witness_EveryCommandAnswers : CursorInside (launch [0x05] 1 []) ∧ ¬IsDecode (.encode 0) ∧
    ¬CursorInside (launch [0x05] 2 []) := by decide

theorem witness_StatusCodesAndWhoAnswersThem : ∃ t, exec (.pack 0 0) (launch [] 0 []) = .next t ∧
    t.ports.rspStatus = statusCode .badlen := ⟨_, rfl, rfl⟩

/-- A failure that moves the cursor, and one that does not. -/
theorem witness_FailedCommandsLeaveTheSpacesAlone :
    (∃ t, exec .decodeAsU8 (launch [0x81, 0x2C] 0 []) = .next t ∧ t.ports.rspStatus ≠ statusCode .ok ∧ t.rpos ≠ 0) ∧
    ∃ t, exec .decode (launch [0x81] 0 []) = .next t ∧ t.ports.rspStatus ≠ statusCode .ok :=
  ⟨⟨_, rfl, by decide, by decide⟩, _, rfl, by decide⟩

theorem witness_CommandsDependOnInputAndCursorOnly : (waiting true []).inp = State.reset.inp ∧
    (waiting true []).rpos = State.reset.rpos ∧ (waiting true []) ≠ State.reset ∧
    ∃ t, exec (.encode 5) State.reset = .next t := ⟨rfl, rfl, by decide, _, rfl⟩

/-- Nothing remains; the form is incomplete; the form is whole and the last bytes of IN. -/
theorem witness_SafePathSamplesTheFormOnly : .decodeAsU32 ∈ safeDecodes ∧
    (launch [0x05] 1 []).inp.length - 1 = 0 ∧
    ((launch [0xC0, 0x00] 0 []).inByte 0 = some 0xC0#8 ∧ (launch [0xC0, 0x00] 0 []).inp.length - 0 < hlen 0xC0#8) ∧
    ((launch [0x81, 0x2C] 0 []).inByte 0 = some 0x81#8 ∧ hlen 0x81#8 ≤ (launch [0x81, 0x2C] 0 []).inp.length - 0) := by
  decide

theorem witness_FastPathSamplesTheWindow : decodePath .decodeF = some .fast ∧
    9 ≤ (launch [0x05, 0, 0, 0, 0, 0, 0, 0, 0] 0 []).inp.length - 0 ∧
    (launch [0x05, 0, 0, 0, 0, 0, 0, 0] 0 []).inp.length - 0 < 9 ∧
    0 ∈ sampledLanes .decodeF (launch [0x05, 0, 0, 0, 0, 0, 0, 0, 0] 0 []) := by decide

/-- The last byte of a whole form, the last lane of a whole window, and a lane inside a footprint. -/
theorem witness_FootprintsStayInsideTheInput : .decode ∈ safeDecodes ∧ 1 ∈ sampledLanes .decode (launch [0x81, 0x2C] 0 []) ∧
    .decodeAsU64F ∈ fastDecodes ∧ 8 ∈ sampledLanes .decodeAsU64F (launch [0x05, 0, 0, 0, 0, 0, 0, 0, 0] 0 []) ∧
    2 ∈ footprint .decode (launch [0x00, 0x81, 0x2C] 1 []) := by decide

/-- Two inputs of one length that differ outside the form only. -/
theorem witness_DecodesDependOnTheirFootprintOnly : IsDecode .decodeF ∧
    (launch [0x80, 0x05, 0xFF] 0 []).inp.length = (launch [0x80, 0x05, 0x00] 0 []).inp.length ∧
    (launch [0x80, 0x05, 0xFF] 0 []).inp ≠ (launch [0x80, 0x05, 0x00] 0 []).inp ∧
    (∀ a ∈ footprint .decode (launch [0x80, 0x05, 0x00] 0 []),
      (launch [0x80, 0x05, 0xFF] 0 []).inByte a = (launch [0x80, 0x05, 0x00] 0 []).inByte a) ∧
    ∃ t, exec .decodeF (launch [0x80, 0x05, 0x00] 0 []) = .next t :=
  ⟨rfl, rfl, by decide, by decide, _, rfl⟩

theorem witness_WindowLanesHoldTheNextBytes : (8 : Nat) < 9 ∧
    8 < (launch [0x05, 0, 0, 0, 0, 0, 0, 0, 0] 0 []).inp.length - 0 := by decide

theorem witness_RemainingPortDoesNotWrap : InputWithinAW (launch [0x05] 0 []) := inputWithinAW_of_one_byte _ _ _

end Sys2Proof.Tests
end

section
/-! SUPPORT. The statements of the scope chapter (00_scope.md): a command always answers, it depends on IN and RPOS
alone, the step runs the decoded command, and a step stops only at a directive that puts the cursor outside the
input. -/

open Sys2Proof.Machine Sys2Proof.Laws Sys2Proof.Claims

namespace Sys2Proof.Proofs

/-! ### When there is an answer, and what it appends -/

/-- With the cursor inside the input a decode command always has an answer (10_state.md R33). -/
theorem exists_decodeAnswer (fit : Nat → Bool) {inp : List Byte} {rpos : Nat} (h : rpos ≤ inp.length) :
    ∃ k bs r, decodeAnswer fit inp rpos = some (k, bs, r) := by
  rw [decodeAnswer, if_pos h]
  cases dec inp rpos with
  | none => exact ⟨_, _, _, rfl⟩
  | some nv => cases hf : fit nv.2 <;> simp [hf]

/-- Only a decode command outside the input has no answer. -/
theorem exists_answer {i : Instr} {inp : List Byte} {rpos : Nat} (h : rpos ≤ inp.length ∨ ¬IsDecode i) :
    ∃ k bs r, answer i inp rpos = some (k, bs, r) := by
  by_cases hd : IsDecode i
  · rw [answer_of_decode hd]
    exact exists_decodeAnswer _ (h.resolve_right (not_not_intro hd))
  · obtain ⟨bs, r, ha⟩ := answer_of_not_decode hd
    exact ⟨0, bs, r, ha inp rpos⟩

/-- With the cursor inside the input every command word has an answer (10_state.md R33, 30_encoding.md R78). -/
theorem exists_wordAnswer (cw : CmdWord) {inp : List Byte} {rpos : Nat} (h : rpos ≤ inp.length) :
    ∃ k bs r, wordAnswer cw inp rpos = some (k, bs, r) := by
  unfold wordAnswer
  cases decodeWord cw with
  | ok i => exact exists_answer (.inl h)
  | error _ => exact ⟨_, _, _, rfl⟩

/-- A PACK outside the domain of its length is outside the domain of `form` (42_encoder.md R134). -/
theorem formDefined_eq_false {n : BitVec 4} {v : Value}
    (h : n = 0 ∨ 10 ≤ n.toNat ∨ (n.toNat ≤ 8 ∧ 2 ^ (7 * n.toNat) ≤ v.toNat)) :
    formDefined n.toNat v.toNat = false := by
  have hn : n.toNat = 0 ∨ 10 ≤ n.toNat ∨ (n.toNat ≤ 8 ∧ 2 ^ (7 * n.toNat) ≤ v.toNat) :=
    h.imp_left fun h0 => by simp [h0]
  rw [Bool.eq_false_iff, ne_eq, formDefined_iff]
  omega

/-- `AppendsNothing` names commands whose answer has no bytes to append (20_memory.md R52). -/
theorem answer_bytes_of_appendsNothing {i : Instr} {inp : List Byte} {rpos k : Nat} {bs : List Byte} {r : Response}
    (hi : AppendsNothing i) (h : answer i inp rpos = some (k, bs, r)) : bs = [] := by
  obtain ⟨hencode, hpack⟩ := hi
  by_cases hd : IsDecode i
  · rw [answer_of_decode hd] at h
    obtain ⟨-, hbs, -⟩ := decodeAnswer_cases h
    exact hbs
  · cases i with
    | encode v => exact absurd rfl (hencode v)
    | pack n v =>
      simp only [answer, formDefined_eq_false (hpack n v rfl)] at h
      cases h
      rfl
    | reqlen _ | fitchkU8 _ | fitchkU16 _ | fitchkU32 _ | fitchkU64 _ => cases h; rfl
    | _ => exact absurd rfl hd

/-! ### What the step calls -/

/-- Between commands the step takes the next event of the schedule (70_reset_and_hazards.md R245). -/
theorem step_of_idle {s : State} (hf : s.inFlight = none) : step s = hostStep s := by
  rw [step, advance, hf]

/-- A presented word is accepted and run in one step (00_scope.md R9). -/
theorem step_of_command {s : State} {cw : CmdWord} {rest : List Event} (hf : s.inFlight = none)
    (hs : s.schedule = .command cw :: rest) : step s = runCommand cw (s.accept cw rest) := by
  rw [step_of_idle hf, hostStep, hs]

/-- A command in flight completes once the Writer is ready, and waits until then (20_memory.md R51). -/
theorem step_of_inFlight {s : State} {cw : CmdWord} (hf : s.inFlight = some cw) :
    step s = if s.wrReady then runCommand cw s else waitStep s := by
  rw [step, advance, hf]

/-! ### No step stops but at a bad directive -/

/-- With the cursor inside the input a command completes or waits. -/
theorem runCommand_answers (cw : CmdWord) {s : State} (h : CursorInside s) : ∃ t, runCommand cw s = .next t := by
  obtain ⟨k, bs, r, ha⟩ := exists_wordAnswer cw h
  simp only [runCommand_eq, ha]
  split <;> exact ⟨_, rfl⟩

theorem waitStep_answers (s : State) : ∃ t, waitStep s = .next t := by
  unfold waitStep
  split <;> exact ⟨_, rfl⟩

/-- `.rpos` with a position in 0..IN_LEN (10_state.md R26). -/
theorem setRposTo_of_le {s : State} {k : Nat} (h : k ≤ s.inp.length) : setRposTo s k = .next { s with rpos := k } :=
  if_pos h

/-- Between commands only `.rpos` beyond IN_LEN stops the step. -/
theorem hostStep_answers {s : State} (hc : CursorInside s)
    (hk : ∀ k rest, s.schedule = .setRpos k :: rest → k ≤ s.inp.length) : ∃ t, hostStep s = .next t := by
  unfold hostStep
  cases hs : s.schedule with
  | nil => exact ⟨_, rfl⟩
  | cons e rest =>
    cases e with
    | command cw => exact runCommand_answers cw (s := s.accept cw rest) hc
    | setRpos k => exact ⟨_, setRposTo_of_le (s := s.betweenCommands rest) (hk k rest hs)⟩
    | bindIn _ | bindOut _ | inFromOut | reset | commandCut _ | writerReady _ => exact ⟨_, rfl⟩

/-! ### The statements -/

/-- Settles O45: of the invariant only the cursor inside the input is needed. Between commands the event decides, a
command in flight runs or waits, and a wait always answers. -/
theorem stepsStopOnlyAtABadDirective : Obligations.StepsStopOnlyAtABadDirective := by
  rintro s ⟨hc, -⟩ hk
  cases hf : s.inFlight with
  | none =>
    rw [step_of_idle hf]
    exact hostStep_answers hc hk
  | some cw =>
    rw [step_of_inFlight hf]
    split
    · exact runCommand_answers cw hc
    · exact waitStep_answers s

/-- Settles O48: every instruction has an answer there, and an answer is a next state with its response. -/
theorem everyCommandAnswers : Obligations.EveryCommandAnswers := by
  intro i s h
  obtain ⟨k, bs, r, ha⟩ := exists_answer h
  exact ⟨after s k bs r, r, exec_of_answer ha, responds_after s k bs r⟩

/-- Settles O51: the answer is a function of IN and RPOS, so both states give the same one. -/
theorem commandsDependOnInputAndCursorOnly : Obligations.CommandsDependOnInputAndCursorOnly := by
  intro i s s' t hinp hrpos h
  obtain ⟨k, bs, r, ha, rfl⟩ := exec_next_iff.mp h
  have ha' : answer i s'.inp s'.rpos = some (k, bs, r) := by rw [hinp, hrpos, ha]
  exact ⟨after s' k bs r, r, bs, exec_of_answer ha', rfl, by simp [hrpos], rfl, rfl, rfl, rfl⟩

/-- Settles O6: the step accepts the word and runs it, and the Writer is ready or has nothing to accept. -/
theorem stepRunsTheDecodedCommand : Obligations.StepRunsTheDecodedCommand := by
  intro s cw rest i hf hs hi hw
  have hrun : runCommand cw (s.accept cw rest) = exec i (s.accept cw rest) := by
    rcases hw with hready | hnothing
    · exact runCommand_ready hready hi
    · exact runCommand_of_no_append hi fun _ _ _ => answer_bytes_of_appendsNothing hnothing
  exact ⟨(step_of_command hf hs).trans hrun, rfl, rfl, rfl, rfl, rfl, rfl, rfl, rfl⟩

end Sys2Proof.Proofs
end

section
/-! SUPPORT. The statements of the state chapter (10_state.md): the invariant every step keeps, what a command does to
the cursor and to the two spaces, the statuses it may answer, the Reader's ports, and the states the model refuses. -/

open Sys2Proof.Machine Sys2Proof.Laws Sys2Proof.Claims

namespace Sys2Proof.Proofs

/-! ### Ports that hold only what the spec allows -/

/-- Codes 5 to 7 are no status (10_state.md R28). -/
theorem statusCode_le_four (st : Status) : statusCode st ≤ 4 := by cases st <;> decide

theorem statusCode_eq_zero_iff (st : Status) : statusCode st = 0 ↔ st = .ok := by cases st <;> decide

theorem idle_legal : Ports.idle.Legal := by decide

/-- The append ports of at most nine bytes: the count is their number, the lanes above it are 0, and `wr_valid` says
that there is one (10_state.md R30, 42_encoder.md R135). -/
theorem appendPorts_legal {bs : List Byte} (h : bs.length ≤ 9) :
    BitVec.ofNat 4 bs.length ≤ 9 ∧
      (BitVec.ofNat 72 (le bs)).toNat < 2 ^ (8 * (BitVec.ofNat 4 bs.length).toNat) ∧
      ((!bs.isEmpty) = true ↔ BitVec.ofNat 4 bs.length ≠ 0) := by
  obtain ⟨hcount, hle⟩ := ofNat_le_nine h
  refine ⟨hle, ?_, ?_⟩
  · rw [port_toNat h, hcount]
    exact le_lt bs
  · rw [ne_eq, ← BitVec.toNat_inj, hcount]
    simp

/-- The ports with a response are legal when the response is and both counts are at most nine. -/
theorem drive_legal {k : Nat} {bs : List Byte} {r : Response} (hk : k ≤ 9) (hbs : bs.length ≤ 9) (hr : r.Legal) :
    (Ports.drive k bs r).Legal := by
  obtain ⟨hlen, hvalue⟩ := hr
  obtain ⟨hcount, hbytes, hvalid⟩ := appendPorts_legal hbs
  exact ⟨statusCode_le_four _, hlen, (ofNat_le_nine hk).2, hcount, hbytes, hvalid,
    fun h => hvalue fun hok => h ((statusCode_eq_zero_iff _).2 hok)⟩

/-- The ports while an append of at least one byte waits for the Writer are legal (20_memory.md R51). -/
theorem waiting_legal {bs : List Byte} (hne : bs ≠ []) (hbs : bs.length ≤ 9) :
    Ports.Legal { Ports.busy with
      wrValid := true, wrCount := BitVec.ofNat 4 bs.length, wrBytes := BitVec.ofNat 72 (le bs) } := by
  obtain ⟨hcount, hbytes, hvalid⟩ := appendPorts_legal hbs
  obtain ⟨hstatus, hlen, hconsume, -⟩ := idle_legal
  have hsome : (!bs.isEmpty) = true := by simpa using hne
  exact ⟨hstatus, hlen, hconsume, hcount, hbytes, iff_of_true rfl (hvalid.1 hsome), fun _ => rfl⟩

/-! ### The invariant, by the ways a step can end -/

/-- An idle unit meets the invariant as far as the cursor and the record do. -/
theorem inv_of_idle {t : State} (hc : CursorInside t) (hr : ResponsesLegal t) (hp : t.ports = Ports.idle)
    (hf : t.inFlight = none) : t.Inv := by
  refine ⟨hc, hr, hp ▸ idle_legal, ?_, ?_⟩
  · simp [HandshakeLegal, hp, hf, Ports.idle]
  · simp [WaitsOnlyForWriter, hf]

/-- A command that completes within the bounds of an answer meets the invariant. -/
theorem inv_after {s : State} {k : Nat} {bs : List Byte} {r : Response} (hc : CursorInside s) (hs : ResponsesLegal s)
    (hk : k ≤ 9) (hrem : k ≤ s.inp.length - s.rpos) (hbs : bs.length ≤ 9) (hr : r.Legal) : (after s k bs r).Inv := by
  refine ⟨?_, ?_, drive_legal hk hbs hr, by simp [HandshakeLegal], by simp [WaitsOnlyForWriter]⟩
  · simp only [CursorInside, after_rpos, after_inp] at hc ⊢
    omega
  · intro r' hr'
    rcases List.mem_append.1 hr' with hold | hnew
    · exact hs r' hold
    · rwa [List.mem_singleton.1 hnew]

/-- A command whose append waits for the Writer meets the invariant. -/
theorem inv_waitForWriter {s : State} {k : Nat} {bs : List Byte} {r : Response} (hc : CursorInside s)
    (hs : ResponsesLegal s) (hf : s.inFlight.isSome = true) (hne : bs ≠ []) (hbs : bs.length ≤ 9) :
    (s.waitForWriter (after s k bs r)).Inv :=
  ⟨hc, hs, waiting_legal hne hbs, ⟨iff_of_true rfl hf, fun _ => rfl⟩, fun _ => rfl⟩

/-- A command in flight completes or waits in a state that meets the invariant (20_memory.md R51). -/
theorem runCommand_inv {cw : CmdWord} {s t : State} (hc : CursorInside s) (hs : ResponsesLegal s)
    (hf : s.inFlight.isSome = true) (h : runCommand cw s = .next t) : t.Inv := by
  obtain ⟨k, bs, r, ha, ht⟩ := runCommand_next h
  obtain ⟨hk, hrem, hbs, hr, -⟩ := wordAnswer_bounds ha
  rcases ht with rfl | ⟨hne, -, rfl⟩
  · exact inv_after hc hs hk hrem hbs hr
  · exact inv_waitForWriter hc hs hf hne hbs

/-! ### The statuses a command may answer -/

/-- A form carries a 64-bit value (40_wire_format.md R107). -/
theorem lt_of_formDefined {n v : Nat} (h : formDefined n v = true) : v < 2 ^ 64 := by
  rcases (formDefined_iff n v).1 h with ⟨-, hn, hv⟩ | ⟨-, hv⟩
  · exact hv.trans_le (Nat.pow_le_pow_right (by decide) (by omega))
  · exact hv

/-- Every 64-bit value fits 64 bits (44_narrowing.md R181). -/
theorem fits_u64 {v : Nat} (h : v < 2 ^ 64) : fits .u64 v = true := decide_eq_true (Nat.le_sub_one_of_lt h)

/-- A decode command answers OK or TRUNCATED, or RANGE about a 64-bit value its check rejects. -/
theorem decodeAnswer_status {fit : Nat → Bool} {inp : List Byte} {rpos k : Nat} {bs : List Byte} {r : Response}
    (h : decodeAnswer fit inp rpos = some (k, bs, r)) :
    r.status = .ok ∨ r.status = .truncated ∨ (r.status = .range ∧ ∃ v < 2 ^ 64, fit v = false) := by
  obtain ⟨-, -, ⟨-, -, rfl⟩ | ⟨v, hd, ⟨-, rfl⟩ | ⟨hfit, rfl⟩⟩⟩ := decodeAnswer_cases h
  · exact .inr (.inl rfl)
  · exact .inl rfl
  · exact .inr (.inr ⟨rfl, v, lt_of_formDefined (dec_some hd).1, hfit⟩)

/-- A decode whose check accepts every 64-bit value answers OK or TRUNCATED (44_narrowing.md R192, R196). -/
theorem decodeAnswer_status_of_fit {fit : Nat → Bool} {inp : List Byte} {rpos k : Nat} {bs : List Byte} {r : Response}
    (hfit : ∀ v < 2 ^ 64, fit v = true) (h : decodeAnswer fit inp rpos = some (k, bs, r)) :
    r.status ∈ [Status.ok, .truncated] := by
  rcases decodeAnswer_status h with hok | htrunc | ⟨-, v, hv, hno⟩
  · simp [hok]
  · simp [htrunc]
  · simp [hfit v hv] at hno

/-- A DECODE_AS answers OK, TRUNCATED or RANGE (44_narrowing.md R183). -/
theorem decodeAnswer_status_mem {fit : Nat → Bool} {inp : List Byte} {rpos k : Nat} {bs : List Byte} {r : Response}
    (h : decodeAnswer fit inp rpos = some (k, bs, r)) : r.status ∈ [Status.ok, .truncated, .range] := by
  rcases decodeAnswer_status h with hst | hst | ⟨hst, -⟩ <;> simp [hst]

/-- FITCHK answers OK or RANGE (44_narrowing.md R182). -/
theorem fitchk_status_mem (w : Width) (v : Value) :
    (if fits w v.toNat then (⟨.ok, 0, v⟩ : Response) else ⟨.range, 0, 0⟩).status ∈ [Status.ok, .range] := by
  split <;> simp

/-- Every answer has a status the table lists for its instruction (60_exceptions.md R210). -/
theorem answer_status_allowed {i : Instr} {inp : List Byte} {rpos k : Nat} {bs : List Byte} {r : Response}
    (h : answer i inp rpos = some (k, bs, r)) : r.status ∈ allowedStatuses i := by
  cases i with
  | reqlen _ | encode _ => cases h; exact List.mem_singleton_self _
  | pack _ _ =>
    simp only [answer] at h
    split at h <;> cases h <;> simp [allowedStatuses]
  | fitchkU8 v => cases h; exact fitchk_status_mem .u8 v
  | fitchkU16 v => cases h; exact fitchk_status_mem .u16 v
  | fitchkU32 v => cases h; exact fitchk_status_mem .u32 v
  | fitchkU64 v => cases h; simp [allowedStatuses, fits_u64 v.isLt]
  | decode | decodeF => exact decodeAnswer_status_of_fit (fun _ _ => rfl) h
  | decodeAsU64 | decodeAsU64F => exact decodeAnswer_status_of_fit (fun _ => fits_u64) h
  | decodeAsU8 | decodeAsU16 | decodeAsU32 | decodeAsU8F | decodeAsU16F | decodeAsU32F =>
    exact decodeAnswer_status_mem h

/-! ### The statements -/

/-- Settles O43: a command completes or waits within the bounds of its answer, every other event between commands and
every reset leaves the unit idle, and a wait that goes on keeps every field the invariant speaks of. -/
theorem stepKeepsTheInvariant : Obligations.StepKeepsTheInvariant := by
  intro s t hinv h
  have ⟨hc, hr, _⟩ := hinv
  rcases step_next_cases h with ⟨cw, rest, -, -, hrun⟩ | ⟨cw, hf, -, hrun⟩ | ⟨hf, -, rfl⟩ | ⟨bs, rest, hf, -, rfl⟩ |
    ⟨k, rest, hf, -, hk, rfl⟩ | ⟨bs, rest, hf, -, rfl⟩ | ⟨rest, hf, -, rfl⟩ | ⟨rest, -, -, rfl⟩ |
    ⟨cw, rest, -, -, rfl⟩ | ⟨b, rest, hf, -, rfl⟩ | ⟨-, -, rfl⟩ | ⟨rest, -, -, rfl⟩ | ⟨b, rest, -, -, rfl⟩
  -- A presented command, and a command in flight with the Writer ready.
  · exact runCommand_inv (s := s.accept cw rest) hc hr rfl hrun
  · exact runCommand_inv hc hr (by simp [hf]) hrun
  -- No event left, then `.in`, `.rpos`, `.out`, `.in_from_out`.
  · exact inv_of_idle hc hr rfl hf
  · exact inv_of_idle (Nat.zero_le _) hr rfl hf
  · exact inv_of_idle hk hr rfl hf
  · exact inv_of_idle hc hr rfl hf
  · exact inv_of_idle (Nat.zero_le _) hr rfl hf
  -- Reset, a command cut by reset, the Writer between commands.
  · exact inv_of_idle hc hr rfl rfl
  · exact inv_of_idle hc hr rfl rfl
  · exact inv_of_idle hc hr rfl hf
  -- A wait that goes on, is ended by reset, or sees the Writer change.
  · exact hinv
  · exact inv_of_idle hc hr rfl rfl
  · exact hinv

/-- Settles O44: reset leaves the unit idle with the cursor at 0 and no response recorded. -/
theorem resetMeetsTheInvariant : Obligations.ResetMeetsTheInvariant :=
  inv_of_idle (Nat.zero_le _) (List.forall_mem_nil _) rfl rfl

/-- Settles O46: an answer consumes no more than remains and only appends to OUT. -/
theorem commandsKeepCursorInputAndOldOutput : Obligations.CommandsKeepCursorInputAndOldOutput := by
  intro i s t hc h
  obtain ⟨k, bs, r, ha, rfl⟩ := exec_next_iff.mp h
  obtain ⟨-, hrem, -⟩ := answer_bounds ha
  have hc' : CursorInside (after s k bs r) := by
    simp only [CursorInside, after_rpos, after_inp] at hc ⊢
    omega
  exact ⟨hc', keepsInput_after s k bs r, fun _ ha => List.getElem?_append_left ha, fun haw => hc'.trans_lt haw⟩

/-- Settles O47: only a decode's answer consumes bytes, and only an encoder's has bytes to append. -/
theorem onlyDecodesMoveTheCursorOnlyEncodersAppend : Obligations.OnlyDecodesMoveTheCursorOnlyEncodersAppend := by
  intro i s t h
  obtain ⟨k, bs, r, ha, rfl⟩ := exec_next_iff.mp h
  refine ⟨Nat.le_add_right _ _, fun hd => ?_, by simp, fun hpack hencode => ?_⟩
  · obtain ⟨bs', r', ha'⟩ := answer_of_not_decode hd
    rw [ha'] at ha
    cases ha
    rfl
  · have hnothing : AppendsNothing i := ⟨hencode, fun n v hi => absurd hi (hpack n v)⟩
    obtain rfl := answer_bytes_of_appendsNothing hnothing ha
    exact keepsOutput_after s k r

/-- Settles O49: the codes are the table's, and the status on the ports is the one of the answer. -/
theorem statusCodesAndWhoAnswersThem : Obligations.StatusCodesAndWhoAnswersThem := by
  refine ⟨rfl, rfl, rfl, rfl, rfl, fun i s t h => ?_⟩
  obtain ⟨k, bs, r, ha, rfl⟩ := exec_next_iff.mp h
  exact ⟨r.status, answer_status_allowed ha, rfl⟩

/-- Settles O56: with nothing left both truncate; otherwise lane 0 is the head byte, and the window value of a form that
is there is the value of its bytes. -/
theorem windowDecoderIgnoresPadding : Obligations.WindowDecoderIgnoresPadding := by
  intro pad inp rpos
  have hl := length_view inp rpos
  cases hv : view inp rpos with
  | nil =>
    rw [hv, List.length_nil] at hl
    simp [decPorts, dec, hv, ← hl]
  | cons b0 rest =>
    rw [hv, List.length_cons] at hl
    have hlane : portLane (windowWith pad inp rpos) 0 = b0 := by
      rw [portLane_windowWith _ _ _ (by decide), windowLane, hv]
      rfl
    simp only [decPorts, dec, hv, hlane, ← hl, if_neg (Nat.succ_ne_zero rest.length)]
    split
    · rfl
    · rename_i hn
      rw [windowValue_eq hv (Nat.le_of_not_lt hn)]

/-- Settles O57: a lane below `remaining` is a byte of the view at the cursor, no padding. -/
theorem windowLanesHoldTheNextBytes : Obligations.WindowLanesHoldTheNextBytes := by
  intro s i h9 hi
  have hv : i < (view s.inp s.rpos).length := by rwa [length_view]
  rw [rdWindow, portLane_windowWith _ _ _ h9, windowLane, List.getElem?_eq_getElem hv, Option.getD_some,
    ← List.getElem?_eq_getElem hv]
  exact List.getElem?_drop

/-- Settles O58: what remains is no more than IN holds. -/
theorem remainingPortDoesNotWrap : Obligations.RemainingPortDoesNotWrap := by
  intro s h
  rw [rdRemaining, BitVec.toNat_ofNat]
  exact Nat.mod_eq_of_lt ((Nat.sub_le _ _).trans_lt h)

/-- Settles O11: the state after reset, field by field. -/
theorem resetStateIsIdle : Obligations.ResetStateIsIdle :=
  ⟨⟨rfl, rfl, rfl, rfl, rfl, rfl, rfl, rfl, rfl⟩, rfl, rfl, rfl, rfl, rfl, rfl, rfl⟩

/-- Settles O13: between commands the step takes the directive, and its test fails. -/
theorem cursorOutsideInputIsRefused : Obligations.CursorOutsideInputIsRefused := by
  intro s k rest hf hs hk
  rw [step_of_idle hf, hostStep, hs]
  exact if_neg (Nat.not_le_of_lt hk)

/-- Settles O33: a decode has no answer with the cursor outside the input. -/
theorem decodeOutsideInputIsRefused : Obligations.DecodeOutsideInputIsRefused := by
  intro i s hd hc
  rw [exec_eq_answer, answer_of_decode hd, decodeAnswer, if_neg hc]
  rfl

end Sys2Proof.Proofs
end

section
/-! SUPPORT. The statements of the memory chapter (20_memory.md): a command waits for the Writer with its append presented
and only the Writer or reset ends the wait, what a decode consumes and what a failed command leaves alone, and the bytes
of IN a command samples and depends on. -/

open Sys2Proof.Machine Sys2Proof.Laws Sys2Proof.Claims

namespace Sys2Proof.Proofs

/-! ### The wait for the Writer -/

/-- A presented command whose answer has bytes to append waits, with these bytes on the ports (20_memory.md R51, R53). -/
theorem waitsWith_of_answer {s : State} {cw : CmdWord} {rest : List Event} {i : Instr} {k : Nat} {bs : List Byte}
    {r : Response} (hf : s.inFlight = none) (hs : s.schedule = .command cw :: rest) (hw : s.wrReady = false)
    (hi : decodeWord cw = .ok i) (ha : answer i s.inp s.rpos = some (k, bs, r)) (hne : bs ≠ []) :
    WaitsWith s cw rest bs := by
  have hrun : runCommand cw (s.accept cw rest) =
      .next ((s.accept cw rest).waitForWriter (after (s.accept cw rest) k bs r)) := by
    rw [runCommand_eq]
    simp [wordAnswer, hi, ha, hne, hw]
  exact ⟨_, (step_of_command hf hs).trans hrun, keepsSpaces_of_eq rfl rfl rfl, rfl, rfl, rfl, hw, rfl, rfl, rfl, rfl, rfl⟩

theorem form_ne_nil (n v : Nat) : form n v ≠ [] := List.cons_ne_nil _ _

/-- With only the host's own actions scheduled the wait goes on (60_exceptions.md R219). -/
theorem waitStep_of_hostActions {s : State} (h : ∀ e ∈ s.schedule, isHostAction e = true) : waitStep s = .next s := by
  rw [waitStep, List.dropWhile_eq_nil_iff.mpr h]

/-- The Writer's next change of `wr_ready` is taken past the host's own actions (20_memory.md R51). -/
theorem waitStep_of_writerReady {s : State} {pre post : List Event} {ready : Bool}
    (hpre : ∀ e ∈ pre, isHostAction e = true) (hs : s.schedule = pre ++ .writerReady ready :: post) :
    waitStep s = .next { s with schedule := pre ++ post, wrReady := ready } := by
  rw [waitStep, hs, List.dropWhile_append_of_pos hpre, List.takeWhile_append_of_pos hpre]
  simp [isHostAction]

/-- Reset is taken past the host's own actions (70_reset_and_hazards.md R241). -/
theorem waitStep_of_reset {s : State} {pre post : List Event} (hpre : ∀ e ∈ pre, isHostAction e = true)
    (hs : s.schedule = pre ++ .reset :: post) :
    waitStep s = .next { s with schedule := pre ++ post }.applyReset := by
  rw [waitStep, hs, List.dropWhile_append_of_pos hpre, List.takeWhile_append_of_pos hpre]
  simp [isHostAction]

/-! ### What a decode consumes -/

theorem statusCode_injective : Function.Injective statusCode := by
  intro a b
  cases a <;> cases b <;> decide

/-- A decode command answers in `len` what it consumes (43_decoder.md R162). -/
theorem decodeAnswer_len {fit : Nat → Bool} {inp : List Byte} {rpos k : Nat} {bs : List Byte} {r : Response}
    (h : decodeAnswer fit inp rpos = some (k, bs, r)) : r.len = BitVec.ofNat 4 k := by
  obtain ⟨-, -, ⟨-, rfl, rfl⟩ | ⟨v, -, ⟨-, rfl⟩ | ⟨-, rfl⟩⟩⟩ := decodeAnswer_cases h <;> rfl

/-- A decode command that answers TRUNCATED consumes nothing and has value 0 (43_decoder.md R154). -/
theorem decodeAnswer_truncated {fit : Nat → Bool} {inp : List Byte} {rpos k : Nat} {bs : List Byte} {r : Response}
    (h : decodeAnswer fit inp rpos = some (k, bs, r)) (hst : statusCode r.status = statusCode .truncated) :
    k = 0 ∧ r.value = 0 := by
  obtain ⟨-, -, ⟨-, rfl, rfl⟩ | ⟨v, -, ⟨-, rfl⟩ | ⟨-, rfl⟩⟩⟩ := decodeAnswer_cases h
  · exact ⟨rfl, rfl⟩
  · exact absurd (statusCode_injective hst) Status.noConfusion
  · exact absurd (statusCode_injective hst) Status.noConfusion

/-- With the cursor inside the input a decode answers OK about a form whose value its check accepts (43_decoder.md
R152). -/
theorem decodeAnswer_of_dec {fit : Nat → Bool} {inp : List Byte} {rpos n v : Nat} (hle : rpos ≤ inp.length)
    (hd : dec inp rpos = some (n, v)) (hfit : fit v = true) :
    decodeAnswer fit inp rpos = some (n, [], ⟨.ok, BitVec.ofNat 4 n, BitVec.ofNat 64 v⟩) := by
  simp [decodeAnswer, hle, hd, hfit]

/-- A command that fails having consumed something is a DECODE_AS whose value does not fit (44_narrowing.md R184). -/
theorem range_of_failed_consume {i : Instr} {inp : List Byte} {rpos k : Nat} {bs : List Byte} {r : Response}
    (h : answer i inp rpos = some (k, bs, r)) (hfail : r.status ≠ .ok) (hk : k ≠ 0) :
    r.status = .range ∧ (decodeWidth i).isSome = true := by
  by_cases hd : IsDecode i
  · rw [answer_of_decode hd] at h
    obtain ⟨-, -, ⟨-, hk0, -⟩ | ⟨v, -, ⟨-, rfl⟩ | ⟨hfit, rfl⟩⟩⟩ := decodeAnswer_cases h
    · exact absurd hk0 hk
    · exact absurd rfl hfail
    · refine ⟨rfl, ?_⟩
      cases hw : decodeWidth i with
      | none => simp [hw, widthFit] at hfit
      | some w => rfl
  · obtain ⟨bs', r', ha⟩ := answer_of_not_decode hd
    rw [ha] at h
    cases h
    exact absurd rfl hk

/-! ### The lanes a command samples -/

theorem sampledLanes_of_safe {i : Instr} (h : decodePath i = some .safe) (s : State) :
    sampledLanes i s = safeLanes s := by
  rw [sampledLanes, h]

theorem sampledLanes_of_fast {i : Instr} (h : decodePath i = some .fast) (s : State) :
    sampledLanes i s = fastLanes s := by
  rw [sampledLanes, h]

theorem decodePath_of_mem_safeDecodes : ∀ i ∈ safeDecodes, decodePath i = some .safe := by decide

theorem decodePath_of_mem_fastDecodes : ∀ i ∈ fastDecodes, decodePath i = some .fast := by decide

/-- A byte at the cursor remains. -/
theorem remaining_pos {s : State} {b0 : Byte} (hb : s.inByte s.rpos = some b0) : 0 < s.inp.length - s.rpos :=
  Nat.sub_pos_of_lt (List.getElem?_eq_some_iff.mp hb).1

/-- With nothing left the safe path samples nothing (20_memory.md R48). -/
theorem safeLanes_of_nothing {s : State} (h : s.inp.length - s.rpos = 0) : safeLanes s = [] := by
  have hv : view s.inp s.rpos = [] := List.eq_nil_of_length_eq_zero (by rw [length_view, h])
  rw [safeLanes, hv]

/-- With a head byte the safe path samples it, and the tail only if the whole form is there (20_memory.md R48). -/
theorem safeLanes_of_head {s : State} {b0 : Byte} (hb : s.inByte s.rpos = some b0) :
    safeLanes s = List.range (if hlen b0 ≤ s.inp.length - s.rpos then hlen b0 else 1) := by
  obtain ⟨hlt, hget⟩ := List.getElem?_eq_some_iff.mp hb
  have hv : view s.inp s.rpos = b0 :: s.inp.drop (s.rpos + 1) := by
    rw [view, List.drop_eq_getElem_cons hlt, hget]
  rw [safeLanes, hv]
  exact (apply_ite List.range (hlen b0 ≤ s.remaining) (hlen b0) 1).symm

/-- Either nothing remains, or there is a head byte at the cursor. -/
theorem nothing_or_head (s : State) : s.inp.length - s.rpos = 0 ∨ ∃ b0, s.inByte s.rpos = some b0 := by
  cases hb : s.inByte s.rpos with
  | none => exact .inl (Nat.sub_eq_zero_of_le (List.getElem?_eq_none_iff.mp hb))
  | some b0 => exact .inr ⟨b0, rfl⟩

/-- The safe path samples bytes of the input only, nine at most (20_memory.md R48). -/
theorem safeLanes_lt {s : State} {l : Nat} (h : l ∈ safeLanes s) : l < s.inp.length - s.rpos ∧ l < 9 := by
  rcases nothing_or_head s with hnone | ⟨b0, hb⟩
  · simp [safeLanes_of_nothing hnone] at h
  · have hpos := remaining_pos hb
    have hrange := hlen_range b0
    rw [safeLanes_of_head hb, List.mem_range] at h
    split at h <;> omega

/-- What the fast path samples: the window when nine bytes remain, and otherwise the window under a Reader with safe
over-read or what the safe path samples (20_memory.md R49). -/
theorem fastLanes_cases (s : State) :
    (9 ≤ s.inp.length - s.rpos ∧ fastLanes s = List.range 9) ∨
      (s.inp.length - s.rpos < 9 ∧
        ((Config.overreadSafe = true ∧ fastLanes s = List.range 9) ∨ fastLanes s = safeLanes s)) := by
  simp only [fastLanes, State.remaining, Config.window]
  split
  · exact .inl ⟨‹_›, rfl⟩
  · refine .inr ⟨by omega, ?_⟩
    split
    · rename_i hlicence
      exact .inl ⟨(Bool.and_eq_true_iff.mp hlicence).1, rfl⟩
    · exact .inr rfl

/-- The fast path samples lanes of the window, and padding only under a Reader with safe over-read (20_memory.md
R49). -/
theorem fastLanes_lt {s : State} {l : Nat} (h : l ∈ fastLanes s) :
    (l < s.inp.length - s.rpos ∨ Config.overreadSafe = true) ∧ l < 9 := by
  rcases fastLanes_cases s with ⟨hrem, heq⟩ | ⟨-, ⟨hsafe, heq⟩ | heq⟩ <;> rw [heq] at h
  · rw [List.mem_range] at h
    exact ⟨.inl (by omega), h⟩
  · exact ⟨.inr hsafe, List.mem_range.mp h⟩
  · exact ⟨.inl (safeLanes_lt h).1, (safeLanes_lt h).2⟩

/-! ### The footprint -/

/-- An index is in the footprint when it is an index of IN and its lane is sampled. -/
theorem mem_footprint {i : Instr} {s : State} {a : Nat} :
    a ∈ footprint i s ↔ s.rpos ≤ a ∧ a < s.inp.length ∧ a - s.rpos ∈ sampledLanes i s := by
  simp only [footprint, List.mem_map, List.mem_filter, decide_eq_true_eq]
  rw [State.remaining]
  constructor
  · rintro ⟨l, ⟨hl, hlt⟩, rfl⟩
    exact ⟨Nat.le_add_right _ _, by omega, by rwa [Nat.add_sub_cancel_left]⟩
  · rintro ⟨hle, hlt, hl⟩
    exact ⟨a - s.rpos, ⟨hl, by omega⟩, by omega⟩

/-- The footprint of the first n lanes, all of them bytes of the input. -/
theorem footprint_of_range {i : Instr} {s : State} {n : Nat} (h : sampledLanes i s = List.range n)
    (hn : n ≤ s.inp.length - s.rpos) : footprint i s = List.range' s.rpos n := by
  have hall : (List.range n).filter (· < s.remaining) = List.range n :=
    List.filter_eq_self.mpr fun l hl => decide_eq_true ((List.mem_range.mp hl).trans_le hn)
  rw [footprint, h, hall, List.range'_eq_map_range]

/-- With a head byte the safe footprint starts at the cursor, with the whole form or the head byte alone (20_memory.md
R48). -/
theorem footprint_decode_of_head {s : State} {b0 : Byte} (hb : s.inByte s.rpos = some b0) :
    footprint .decode s = List.range' s.rpos (if hlen b0 ≤ s.inp.length - s.rpos then hlen b0 else 1) := by
  have hpos := remaining_pos hb
  exact footprint_of_range (safeLanes_of_head hb) (by split <;> omega)

/-- Inputs of the same length that agree on the head byte, and on the whole form if it is there, hold the same form or
both none (43_decoder.md R155). -/
theorem dec_eq_of_head {inp inp' : List Byte} {rpos : Nat} {b0 : Byte} (hb : inp[rpos]? = some b0)
    (hin : inp'.length = inp.length)
    (hagree : ∀ j < if hlen b0 ≤ inp.length - rpos then hlen b0 else 1, inp'[rpos + j]? = inp[rpos + j]?) :
    dec inp' rpos = dec inp rpos := by
  have hhead : inp'[rpos]? = some b0 := by
    rw [← hb]
    have hrange := hlen_range b0
    exact hagree 0 (by split <;> omega)
  by_cases hwhole : hlen b0 ≤ inp.length - rpos
  · have htail : (inp'.drop (rpos + 1)).take (hlen b0 - 1) = (inp.drop (rpos + 1)).take (hlen b0 - 1) := by
      apply List.ext_getElem?
      intro j
      simp only [List.getElem?_take, List.getElem?_drop]
      split
      · rw [Nat.add_assoc]
        exact hagree (1 + j) (by rw [if_pos hwhole]; omega)
      · rfl
    rw [dec_of_head hhead (by rwa [hin]), dec_of_head hb hwhole, htail]
  · rw [dec_none_iff.mpr (.inr ⟨b0, hhead, by omega⟩), dec_none_iff.mpr (.inr ⟨b0, hb, by omega⟩)]

/-- Inputs of the same length that agree on the safe footprint hold the same form at the cursor, or both none
(43_decoder.md R155). -/
theorem dec_eq_of_footprint {s s' : State} (hrpos : s'.rpos = s.rpos) (hin : s'.inp.length = s.inp.length)
    (hagree : ∀ a ∈ footprint .decode s, s'.inByte a = s.inByte a) : dec s'.inp s'.rpos = dec s.inp s.rpos := by
  rw [hrpos]
  rcases nothing_or_head s with hnone | ⟨b0, hb⟩
  · have htrunc {inp : List Byte} (h : inp.length - s.rpos = 0) : dec inp s.rpos = none :=
      dec_none_iff.mpr (.inl (List.getElem?_eq_none (Nat.le_of_sub_eq_zero h)))
    rw [htrunc hnone, htrunc (by rw [hin, hnone])]
  · refine dec_eq_of_head hb hin fun j hj => hagree _ ?_
    rw [footprint_decode_of_head hb, List.mem_range'_1]
    omega

/-! ### The statements -/

/-- Settles O8: ENCODE always has a form to append, and PACK has one in its domain. -/
theorem commandWaitsForTheWriter : Obligations.CommandWaitsForTheWriter := by
  intro s cw rest hf hs hw
  refine ⟨fun v hi => ?_, fun n v hi h1 h9 hfit => ?_⟩
  · exact waitsWith_of_answer hf hs hw hi rfl (form_ne_nil _ _)
  · have hdef : formDefined n.toNat v.toNat = true := by
      have hv := v.isLt
      rw [formDefined_iff]
      omega
    exact waitsWith_of_answer hf hs hw hi (if_pos hdef) (form_ne_nil _ _)

/-- Settles O9: with the Writer ready the command runs; otherwise the first event that is not the host's decides. -/
theorem waitEndsOnlyByWriterOrReset : Obligations.WaitEndsOnlyByWriterOrReset := by
  intro s cw hf
  have hwait (hw : s.wrReady = false) : step s = waitStep s := by
    rw [step_of_inFlight hf, hw]
    rfl
  refine ⟨fun hw i hi => ?_, fun hw hhost => ?_, fun hw pre ready post hpre hs => ?_, fun hw pre post hpre hs => ?_⟩
  · rw [step_of_inFlight hf, if_pos hw, runCommand_ready hw hi]
  · rw [hwait hw, waitStep_of_hostActions hhost]
  · rw [hwait hw, waitStep_of_writerReady hpre hs]
  · exact ⟨_, (hwait hw).trans (waitStep_of_reset hpre hs), keepsSpaces_of_eq rfl rfl rfl, rfl, rfl,
      rfl, rfl, rfl, rfl, rfl, rfl, rfl, rfl, rfl⟩

/-- Settles O32: the answer's length is what is consumed, and nine at most, so it is not cut to four bits. -/
theorem decodesDriveConsumeAndLength : Obligations.DecodesDriveConsumeAndLength := by
  intro i s t hd h
  obtain ⟨k, bs, r, ha, rfl⟩ := exec_next_iff.mp h
  obtain ⟨hk, -⟩ := answer_bounds ha
  rw [answer_of_decode hd] at ha
  refine ⟨(decodeAnswer_len ha).symm, congrArg (s.rpos + ·) (ofNat_le_nine hk).1.symm, fun hst => ?_⟩
  obtain ⟨rfl, hvalue⟩ := decodeAnswer_truncated ha hst
  exact ⟨rfl, hvalue⟩

/-- Settles O38: `dec` finds the form at the cursor, whatever stands around it. -/
theorem everyFormIsAcceptedAnywhere : Obligations.EveryFormIsAcceptedAnywhere := by
  intro n v s pre post hdef hinp hrpos
  have hview : view s.inp s.rpos = form n v ++ post := by
    rw [view, hinp, hrpos, List.append_assoc, List.drop_left]
  have hle : s.rpos ≤ s.inp.length := by
    rw [hinp, hrpos, List.append_assoc, List.length_append]
    exact Nat.le_add_right _ _
  have ha := decodeAnswer_of_dec (fit := fun _ => true) hle (dec_of_view hdef hview) rfl
  exact ⟨_, exec_of_answer (i := .decode) ha, responds_after .., rfl, keepsInput_after .., keepsOutput_after ..⟩

/-- Settles O50: a failing answer has value 0, no bytes to append and in `len` what it consumed. -/
theorem failedCommandsLeaveTheSpacesAlone : Obligations.FailedCommandsLeaveTheSpacesAlone := by
  intro i s t h hst
  obtain ⟨k, bs, r, ha, rfl⟩ := exec_next_iff.mp h
  have hfail : r.status ≠ .ok := fun hok => hst (congrArg statusCode hok)
  obtain ⟨hk, -, -, ⟨-, hvalue⟩, hfailed⟩ := answer_bounds ha
  obtain ⟨rfl, hcount⟩ := hfailed hfail
  have hmoved : (after s k [] r).rpos = s.rpos + (after s k [] r).ports.rspLen.toNat := by
    simp [hcount, (ofNat_le_nine hk).1]
  refine ⟨hvalue hfail, hmoved, keepsInput_after s k [] r, keepsOutput_after s k r, rfl, fun hmove => ?_⟩
  have hk0 : k ≠ 0 := by
    rintro rfl
    exact hmove rfl
  obtain ⟨hrange, hwidth⟩ := range_of_failed_consume ha hfail hk0
  exact ⟨congrArg statusCode hrange, hwidth⟩

/-- Settles O52: by what remains and the head byte; the head byte alone is the first lane. -/
theorem safePathSamplesTheFormOnly : Obligations.SafePathSamplesTheFormOnly := by
  intro i s hi
  have hlanes := sampledLanes_of_safe (decodePath_of_mem_safeDecodes i hi) s
  refine ⟨fun hnone => ?_, fun b0 hb => ⟨fun hpart => ?_, fun hwhole => ?_⟩⟩
  · have hnil : sampledLanes i s = List.range 0 := by rw [hlanes, safeLanes_of_nothing hnone, List.range_zero]
    exact ⟨hnil, footprint_of_range hnil (Nat.zero_le _)⟩
  · have hone : sampledLanes i s = List.range 1 := by
      rw [hlanes, safeLanes_of_head hb, if_neg (Nat.not_le_of_lt hpart)]
    exact ⟨hone, footprint_of_range hone (remaining_pos hb)⟩
  · have hall : sampledLanes i s = List.range (hlen b0) := by rw [hlanes, safeLanes_of_head hb, if_pos hwhole]
    exact ⟨hall, footprint_of_range hall hwhole⟩

/-- Settles O53: by the three cases of what the fast path samples. -/
theorem fastPathSamplesTheWindow : Obligations.FastPathSamplesTheWindow := by
  intro i s hi
  have hlanes := sampledLanes_of_fast hi s
  refine ⟨fun hnine => ?_, fun hfew => ?_, fun l hl => ?_⟩
  · rcases fastLanes_cases s with ⟨-, heq⟩ | ⟨hfew, -⟩
    · have hwindow := hlanes.trans heq
      exact ⟨hwindow, footprint_of_range hwindow hnine⟩
    · exact absurd hnine (Nat.not_le_of_lt hfew)
  · rcases fastLanes_cases s with ⟨hnine, -⟩ | ⟨-, ⟨hsafe, -⟩ | heq⟩
    · exact absurd hnine (Nat.not_le_of_lt hfew)
    · exact .inl hsafe
    · have hsame : sampledLanes i s = sampledLanes .decode s := hlanes.trans heq
      exact .inr (by rw [footprint, hsame, footprint])
  · obtain ⟨hlane, h9⟩ := fastLanes_lt (hlanes ▸ hl)
    exact hlane.imp_right fun hsafe => ⟨hsafe, h9⟩

/-- Settles O54: by the bounds of the two paths' lanes and what an index in a footprint is. -/
theorem footprintsStayInsideTheInput : Obligations.FootprintsStayInsideTheInput := by
  intro s
  refine ⟨fun i hi l hl => ?_, fun i hi l hl => ?_, fun n v => ⟨rfl, rfl, rfl, rfl, rfl, rfl, rfl⟩,
    fun i a ha => mem_footprint.mp ha⟩
  · rw [sampledLanes_of_safe (decodePath_of_mem_safeDecodes i hi)] at hl
    exact safeLanes_lt hl
  · rw [sampledLanes_of_fast (decodePath_of_mem_fastDecodes i hi)] at hl
    exact fastLanes_lt hl

/-- Settles O55: a decode's answer is made from `dec`, which the safe footprint determines. -/
theorem decodesDependOnTheirFootprintOnly : Obligations.DecodesDependOnTheirFootprintOnly := by
  intro i s s' hd hrpos hin hagree t h
  obtain ⟨k, bs, r, ha, rfl⟩ := exec_next_iff.mp h
  have ha' : answer i s'.inp s'.rpos = some (k, bs, r) := by
    rw [← ha, answer_of_decode hd, answer_of_decode hd, decodeAnswer, decodeAnswer,
      dec_eq_of_footprint hrpos hin hagree, hrpos, hin]
  exact ⟨after s' k bs r, r, exec_of_answer ha', rfl, by simp [hrpos], rfl, rfl⟩

end Sys2Proof.Proofs
end

section
/-! SUPPORT. The statements of the encoding chapter (30_encoding.md): the encoder and the decoder agree, OP alone
decides whether a word is legal, the fields an operation does not read have no effect, what an illegal word answers, and
the four host directives. -/

open Sys2Proof.Machine Sys2Proof.Laws Sys2Proof.Claims

namespace Sys2Proof.Proofs

/-! ### The one case analysis of the decoder -/

/-- The word with the OP of `cw`, the fields its operation reads, and 0 in every other field (30_encoding.md R75, R76,
R82). -/
def readFields (cw : CmdWord) : CmdWord :=
  assemble (opField cw) (if opField cw = 0x20#8 then nField cw else 0) (if opField cw ∈ readsV then vField cw else 0)

/-- Everything the decoder can do with a word: OP is none of the 17 values, or the word spells an instruction, which the
encoder turns into the fields that were read (30_encoding.md R75, R76, R78). -/
theorem decodeWord_cases (cw : CmdWord) :
    (opField cw ∉ legalOps ∧ decodeWord cw = .error (.illegalOp (opField cw))) ∨
      (opField cw ∈ legalOps ∧ ∃ i, decodeWord cw = .ok i ∧ encode i = readFields cw) := by
  unfold decodeWord readFields
  split
  iterate 17
    · rename_i hop
      rw [hop]
      exact .inr ⟨by decide, _, rfl, rfl⟩
  · exact .inl ⟨by simp_all [legalOps], rfl⟩

/-- A word with an illegal OP is rejected by name (30_encoding.md R78). -/
theorem decodeWord_of_illegal {cw : CmdWord} (h : opField cw ∉ legalOps) :
    decodeWord cw = .error (.illegalOp (opField cw)) := by
  rcases decodeWord_cases cw with ⟨-, herr⟩ | ⟨hop, -⟩
  · exact herr
  · exact absurd hop h

/-- OP alone decides whether a word spells an instruction (30_encoding.md R75, R78). -/
theorem exists_decodeWord_iff (cw : CmdWord) : (∃ i, decodeWord cw = .ok i) ↔ opField cw ∈ legalOps := by
  rcases decodeWord_cases cw with ⟨hop, herr⟩ | ⟨hop, i, hi, -⟩
  · simp [hop, herr]
  · simp [hop, hi]

/-- The encoder keeps the fields the decoder read (30_encoding.md R76, R82). -/
theorem encode_of_decodeWord {cw : CmdWord} {i : Instr} (h : decodeWord cw = .ok i) : encode i = readFields cw := by
  rcases decodeWord_cases cw with ⟨-, herr⟩ | ⟨-, j, hj, henc⟩
  · rw [herr] at h
    cases h
  · rw [hj] at h
    cases h
    exact henc

/-- The two ways to say that an OP value is legal: the list of R75 and the subfields of R72. -/
theorem mem_legalOps_iff : ∀ op : BitVec 8, op ∈ legalOps ↔ opWellFormed op = true := by decide

/-- An illegal word has its answer at once: it never waits for the Writer (30_encoding.md R78). -/
theorem runCommand_of_illegal {cw : CmdWord} {s : State} (h : opField cw ∉ legalOps) :
    runCommand cw s = .next (after s 0 [] ⟨.illegal, 0, 0⟩) := by
  have hanswer : wordAnswer cw s.inp s.rpos = some (0, [], ⟨.illegal, 0, 0⟩) := by
    rw [wordAnswer, decodeWord_of_illegal h]
  simp [runCommand_eq, hanswer]

/-! ### The statements -/

/-- Settles O1: the decoder looks up the OP the encoder wrote and reads back the operands beside it. -/
theorem encodedInstructionsDecodeBack : Obligations.EncodedInstructionsDecodeBack := by
  intro i
  cases i with
  | pack n v => simp only [encode, decodeWord, opField_assemble, nField_assemble, vField_assemble]
  | reqlen v | encode v | fitchkU8 v | fitchkU16 v | fitchkU32 v | fitchkU64 v =>
    simp only [encode, decodeWord, opField_assemble, vField_assemble]
  | decode | decodeF | decodeAsU8 | decodeAsU16 | decodeAsU32 | decodeAsU64 | decodeAsU8F | decodeAsU16F | decodeAsU32F
  | decodeAsU64F => simp only [encode, decodeWord, opField_assemble]

/-- Words with the same OP and the same read fields spell the same instruction, or both none. -/
theorem decodeWord_eq_of_readFields {cw cw' : CmdWord} (hop : opField cw = opField cw')
    (hfields : readFields cw = readFields cw') : decodeWord cw = decodeWord cw' := by
  rcases decodeWord_cases cw with ⟨hillegal, herr⟩ | ⟨hlegal, i, hi, henc⟩
  · rw [herr, decodeWord_of_illegal (hop ▸ hillegal), hop]
  · obtain ⟨i', hi'⟩ := (exists_decodeWord_iff cw').mpr (hop ▸ hlegal)
    have hword : encode i = encode i' := by rw [henc, hfields, encode_of_decodeWord hi']
    have hsame : Except.ok (ε := DecodeError) i = .ok i' := by
      rw [← encodedInstructionsDecodeBack i, hword, encodedInstructionsDecodeBack i']
    rw [hi, hi', hsame]

/-- Settles O2: two such words read the same fields, so the decoder makes the same of them. -/
theorem unreadFieldsHaveNoEffect : Obligations.UnreadFieldsHaveNoEffect := by
  intro cw cw' hop
  refine ⟨by rw [exists_decodeWord_iff, exists_decodeWord_iff, hop], fun hn hv s => ?_⟩
  have hfields : readFields cw = readFields cw' := by
    rw [readFields, readFields, hop, ite_congr rfl (fun h => hn (hop.trans h)) fun _ => rfl,
      ite_congr rfl (fun h => hv (hop ▸ h)) fun _ => rfl]
  rw [execWord, execWord, decodeWord_eq_of_readFields hop hfields]

/-- Settles O3: by the decoder's cases, and by the 256 values of OP. -/
theorem legalWordsAreTheSeventeenOps : Obligations.LegalWordsAreTheSeventeenOps :=
  fun cw => ⟨exists_decodeWord_iff cw, mem_legalOps_iff (opField cw)⟩

/-- Settles O4: the word assembled again is made of the fields that were read. -/
theorem reassembledWordKeepsReadFields : Obligations.ReassembledWordKeepsReadFields := by
  intro cw i hi
  rw [encode_of_decodeWord hi]
  exact ⟨opField_assemble .., nField_assemble .., vField_assemble ..⟩

/-- Settles O7: the ranges hold by the 256 values of OP; the decoder rejects the word, and its answer has nothing to
consume or to append. -/
theorem illegalWordsAnswerIllegal : Obligations.IllegalWordsAnswerIllegal := by
  refine ⟨by decide, by decide, by decide, fun s cw rest hf hs hop => ?_⟩
  have hrun := runCommand_of_illegal (s := s.accept cw rest) hop
  exact ⟨_, (step_of_command hf hs).trans hrun, responds_after (s.accept cw rest) ..,
    keepsSpaces_after (s.accept cw rest) _, drivesNothing_after ..⟩

/-- Settles O5: the decoder evaluates on each word. -/
theorem writtenOutWordsDecode : Obligations.WrittenOutWordsDecode := by
  unfold Obligations.WrittenOutWordsDecode
  decide

/-- Settles O12: between commands the step takes the directive, which sets the fields it names. -/
theorem directivesRebindTheSpaces : Obligations.DirectivesRebindTheSpaces := by
  intro s rest hf
  refine ⟨fun bytes hs => ?_, fun k hs hk => ?_, fun bytes hs => ?_, fun hs => ?_⟩ <;>
    rw [step_of_idle hf, hostStep, hs]
  · exact ⟨_, rfl, rfl, rfl, keepsOutput_of_eq rfl, rfl, rfl⟩
  · exact ⟨_, setRposTo_of_le (s := s.betweenCommands rest) hk, rfl, keepsInput_of_eq rfl, keepsOutput_of_eq rfl, rfl,
      rfl⟩
  · exact ⟨_, rfl, rfl, rfl, keepsInput_of_eq rfl, rfl, rfl⟩
  · exact ⟨_, rfl, rfl, rfl, keepsOutput_of_eq rfl, rfl, rfl⟩

end Sys2Proof.Proofs
end

section
/-! SUPPORT. The statements of the wire format chapter (40_wire_format.md): the bits of a form, the length a head byte
implies, decoding and forming invert each other, and what PACK appends decodes back. -/

open Sys2Proof.Machine Sys2Proof.Laws Sys2Proof.Claims

namespace Sys2Proof.Proofs

/-! ### The bits of a form -/

/-- The marker of length n is ones from bit 9-n up (40_wire_format.md R102). -/
theorem testBit_marker (n : Nat) {j : Nat} (hj : j < 8) : (marker n).testBit j = decide (9 - n ≤ j) := by
  have hbyte : 0xFF = 2 ^ 8 - 1 := rfl
  rw [marker, hbyte, Nat.testBit_and, Nat.testBit_shiftLeft, Nat.testBit_two_pow_sub_one, Nat.testBit_two_pow_sub_one,
    decide_eq_true hj, decide_eq_true (show j - (9 - n) < 8 by omega), Bool.and_true, Bool.and_true]

/-- The payload mask of length n is the bits below 8-n (40_wire_format.md R102). -/
theorem testBit_pmask (n j : Nat) : (pmask n).testBit j = decide (j < 8 - n) :=
  Nat.testBit_two_pow_sub_one (8 - n) j

/-- The head byte of a short form is its marker over the value bits from `8*(n-1)` on (40_wire_format.md R103). -/
theorem getLsbD_headByte_short {n j : Nat} (v : Nat) (hn : n ≤ 8) (hj : j < 8) : (headByte n v).getLsbD j =
    (decide (9 - n ≤ j) || v.testBit (8 * (n - 1) + j) && decide (j < 8 - n)) := by
  have hshort : n ≠ Config.escapeLen := Nat.ne_of_lt (Nat.lt_succ_of_le hn)
  rw [headByte, if_neg hshort, BitVec.getLsbD_ofNat, decide_eq_true hj, Bool.true_and, Nat.testBit_or, Nat.testBit_and,
    testBit_marker n hj, testBit_pmask, Nat.testBit_shiftRight]

/-- Tail byte i holds the value bits from `8*(i-1)` on (40_wire_format.md R104, R105). -/
theorem getLsbD_tailByte {j : Nat} (v i : Nat) (hj : j < 8) :
    (tailByte v i).getLsbD j = v.testBit (8 * (i - 1) + j) := by
  have hbyte : 0xFF = 2 ^ 8 - 1 := rfl
  rw [tailByte, hbyte, BitVec.getLsbD_ofNat, Nat.testBit_and, Nat.testBit_two_pow_sub_one, Nat.testBit_shiftRight,
    decide_eq_true hj, Bool.true_and, Bool.and_true]

theorem form_getElem?_zero (n v : Nat) : (form n v)[0]? = some (headByte n v) := rfl

theorem form_getElem?_tail {n i : Nat} (v : Nat) (h1 : 1 ≤ i) (hi : i < n) : (form n v)[i]? = some (tailByte v i) := by
  obtain ⟨k, rfl⟩ := Nat.exists_eq_add_of_le' h1
  rw [form, List.getElem?_cons_succ, List.getElem?_map, List.getElem?_range' (by omega)]
  simp [Nat.add_comm]

/-- One formula for the short forms and the escape form (40_wire_format.md R106). -/
theorem hlen_eq_clo8_add_one : ∀ b : Byte, hlen b = clo8 b + 1 := by decide

/-! ### Forms and the values they carry -/

/-- For a fixed length the form determines its value (40_wire_format.md R109). -/
theorem form_injective {n v v' : Nat} (hv : formDefined n v = true) (hv' : formDefined n v' = true)
    (h : form n v = form n v') : v = v' := by
  obtain ⟨hhead, htail⟩ := List.cons.inj h
  calc v = formval (headByte n v) ((List.range' 1 (n - 1)).map (tailByte v)) := (formval_form hv).symm
    _ = formval (headByte n v') ((List.range' 1 (n - 1)).map (tailByte v')) := by rw [hhead, htail]
    _ = v' := formval_form hv'

theorem length_bounds_of_formDefined {n v : Nat} (h : formDefined n v = true) : 1 ≤ n ∧ n ≤ 9 := by
  rw [formDefined_iff] at h
  omega

theorem lt_of_formDefined_short {n v : Nat} (h : formDefined n v = true) (hn : n ≤ 8) : v < 2 ^ (7 * n) := by
  rw [formDefined_iff] at h
  omega

/-- From the required length on, every length can carry the value (41_length.md R120, 42_encoder.md R133). -/
theorem formDefined_of_reqlen_le {n v : Nat} (hv : v < 2 ^ 64) (h : reqlen v ≤ n) (h9 : n ≤ 9) :
    formDefined n v = true := by
  have h1 := (reqlen_pos v).trans h
  rw [formDefined_iff]
  rcases Nat.lt_or_ge n 9 with h8 | h8
  · exact .inl ⟨h1, Nat.le_of_lt_succ h8, (reqlen_le_iff h1 (Nat.le_of_lt_succ h8)).mp h⟩
  · exact .inr ⟨Nat.le_antisymm h9 h8, hv⟩

/-! ### Forms handed over to the Reader -/

/-- A form at the end of OUT is found at its index after the hand-over (42_encoder.md R140). -/
theorem dec_handedOver {t : State} {pre : List Byte} {n v : Nat} (hdef : formDefined n v = true)
    (hout : t.out = pre ++ form n v) : dec t.out pre.length = some (n, v) := by
  refine dec_of_view (post := []) hdef ?_
  rw [view, hout, List.drop_left, List.append_nil]

/-- A decode whose check accepts the value of a form at the end of OUT answers OK about it after the hand-over. -/
theorem decodesAtEnd_of_form {i : Instr} {t : State} {pre : List Byte} {n v : Nat} (hi : IsDecode i)
    (hdef : formDefined n v = true) (hout : t.out = pre ++ form n v) (hfit : widthFit (decodeWidth i) v = true) :
    DecodesAtEnd i t pre.length n ⟨.ok, BitVec.ofNat 4 n, BitVec.ofNat 64 v⟩ := by
  have hlength : t.out.length = pre.length + n := by
    rw [hout, List.length_append, form_length v (length_bounds_of_formDefined hdef).1]
  have ha : answer i (handedOver t pre.length).inp (handedOver t pre.length).rpos = some (n, [], _) :=
    (answer_of_decode hi _ _).trans
      (decodeAnswer_of_dec (hlength ▸ Nat.le_add_right _ _) (dec_handedOver hdef hout) hfit)
  exact ⟨_, exec_of_answer ha, responds_after .., rfl, hlength.symm⟩

/-! ### The statements -/

/-- Settles O36: the head byte says the length and the algebra of the decoder gives the value back, so a form has one
value. -/
theorem decodingInvertsForming : Obligations.DecodingInvertsForming := by
  refine ⟨fun n v hdef => ?_, fun n v v' => form_injective⟩
  obtain ⟨h1, h9⟩ := length_bounds_of_formDefined hdef
  exact ⟨form_length v h1, _, _, rfl, hlen_headByte v h1 h9, formval_form hdef⟩

/-- Settles O34: bit by bit, where no payload bit of the head byte reaches the terminator; the constants evaluate. -/
theorem formBitsAreAsLaidOut : Obligations.FormBitsAreAsLaidOut := by
  refine ⟨fun n v j h1 h8 hj _ => ⟨_, form_getElem?_zero n v, ?_⟩, fun v _ => form_getElem?_zero 9 v,
    fun n v i j _ h1 hi hj => ⟨_, form_getElem?_tail v h1 hi, getLsbD_tailByte v i hj⟩, by decide, by decide⟩
  rw [getLsbD_headByte_short v h8 hj]
  split
  · rw [decide_eq_true ‹_›, Bool.true_or]
  · rename_i hmarker
    rw [decide_eq_false hmarker, Bool.false_or]
    split
    · rw [decide_eq_false (by omega), Bool.and_false]
    · rw [decide_eq_true (by omega), Bool.and_true]

/-- Settles O37: what `dec` finds is a form; two forms of one value are equal only at one length. -/
theorem decodedBytesAreTheFormOfTheirValue : Obligations.DecodedBytesAreTheFormOfTheirValue := by
  intro inp rpos n v h
  obtain ⟨hdef, -, hbytes⟩ := dec_some h
  obtain ⟨h1, h9⟩ := length_bounds_of_formDefined hdef
  have hminimal : reqlen v = n ↔ form n v = form (reqlen v) v := by
    refine ⟨fun heq => by rw [heq], fun heq => ?_⟩
    rw [← form_length v (reqlen_pos v), ← heq, form_length v h1]
  rw [view] at hbytes
  rw [hbytes]
  exact ⟨h1, h9, lt_of_formDefined hdef, lt_of_formDefined_short hdef, rfl, reqlen_le_of_formDefined hdef, hminimal⟩

/-- Settles O40: such a length is in the domain of `form`, so PACK appends the form and both paths find it at the end of
OUT. -/
theorem packedFormsDecodeBack : Obligations.PackedFormsDecodeBack := by
  intro n v s hreq h9
  have hdef := formDefined_of_reqlen_le v.isLt hreq h9
  have hback (i : Instr) (hi : IsDecode i) (hwidth : decodeWidth i = none) :
      DecodesAtEnd i (after s 0 (form n.toNat v.toNat) ⟨.ok, n, 0⟩) s.out.length n.toNat ⟨.ok, n, v⟩ := by
    have hend := decodesAtEnd_of_form (t := after s 0 (form n.toNat v.toNat) ⟨.ok, n, 0⟩) hi hdef rfl
      (by rw [hwidth]; rfl)
    rwa [BitVec.ofNat_toNat, BitVec.ofNat_toNat, BitVec.setWidth_eq, BitVec.setWidth_eq] at hend
  exact ⟨_, exec_of_answer (i := .pack n v) (if_pos hdef), responds_after .., hback .decode rfl rfl,
    hback .decodeF rfl rfl⟩

/-- Settles O35: 0xFF has eight leading ones, so the escape form is no exception; the table holds by the 256 bytes. -/
theorem headBytesPartitionByLength : Obligations.HeadBytesPartitionByLength := by
  refine fun b => ⟨rfl, hlen_eq_clo8_add_one b, (hlen_range b).1, (hlen_range b).2, ?_⟩
  revert b
  decide

end Sys2Proof.Proofs
end

section
/-! SUPPORT. The statements of the length chapter (41_length.md): what REQLEN answers, the closed form of the required
length with its thresholds, and its laws. -/

open Sys2Proof.Machine Sys2Proof.Laws Sys2Proof.Claims

namespace Sys2Proof.Proofs

/-! ### Bit lengths -/

theorem lt_two_pow_bitlen (v : Nat) : v < 2 ^ bitlen v := (bitlen_le_iff v _).mp (Nat.le_refl _)

theorem bitlen_mono {a b : Nat} (h : a ≤ b) : bitlen a ≤ bitlen b :=
  (bitlen_le_iff a _).mpr (h.trans_lt (lt_two_pow_bitlen b))

/-! ### The required length -/

/-- A required length below the escape length holds the value (41_length.md R123). -/
theorem lt_of_reqlen_le_eight {v : Nat} (h : reqlen v ≤ 8) : v < 2 ^ (7 * reqlen v) :=
  (reqlen_le_iff (reqlen_pos v) h).mp (Nat.le_refl _)

/-- A length below the required one cannot carry the value (41_length.md R123). -/
theorem formDefined_eq_false_of_lt_reqlen {n v : Nat} (h : n < reqlen v) : formDefined n v = false :=
  Bool.eq_false_iff.mpr fun hdef => Nat.not_le_of_lt h (reqlen_le_of_formDefined hdef)

/-- The required length is monotone in the bit length: a short length that holds b holds a (41_length.md R123). -/
theorem reqlen_le_of_bitlen_le {a b : Nat} (h : bitlen a ≤ bitlen b) : reqlen a ≤ reqlen b := by
  rcases Nat.lt_or_ge 8 (reqlen b) with h9 | h8
  · exact (reqlen_le_nine a).trans h9
  · have hb := (reqlen_le_iff_bitlen (reqlen_pos b) h8).mp (Nat.le_refl _)
    exact (reqlen_le_iff_bitlen (reqlen_pos b) h8).mpr (h.trans hb)

/-- From 2^56 on no short length holds the value (41_length.md R122). -/
theorem reqlen_eq_nine {v : Nat} (h : 2 ^ 56 ≤ v) : reqlen v = 9 := by
  have hlong : ¬reqlen v ≤ 8 := fun h8 => Nat.not_lt_of_le h ((reqlen_le_iff (by decide) (Nat.le_refl 8)).mp h8)
  exact Nat.le_antisymm (reqlen_le_nine v) (Nat.lt_of_not_le hlong)

/-- Below 2^56 the required length is the bit length over 7 rounded up, which holds every bit, and no shorter one does
(41_length.md R122). -/
theorem reqlen_eq_bitlen_div {v : Nat} (h : v < 2 ^ 56) : reqlen v = max 1 ((bitlen v + 6) / 7) := by
  have h56 : bitlen v ≤ 56 := (bitlen_le_iff v 56).mpr h
  have h8 : reqlen v ≤ 8 := (reqlen_le_iff (by decide) (Nat.le_refl 8)).mpr h
  apply Nat.le_antisymm
  · exact (reqlen_le_iff_bitlen (by omega) (by omega)).mpr (by omega)
  · have hfit := (reqlen_le_iff_bitlen (reqlen_pos v) h8).mp (Nat.le_refl _)
    have hpos := reqlen_pos v
    omega

/-! ### REQLEN -/

theorem spells_reqlen : Spells 0x10#8 (fun cw => .reqlen (vField cw)) := by
  intro cw hop
  simp only [decodeWord, hop]

/-- The 4-bit port carries a length of 1 to 9 as it is (41_length.md R124). -/
theorem rspLen_reqlen_bounds (v : Nat) : 1 ≤ BitVec.ofNat 4 (reqlen v) ∧ BitVec.ofNat 4 (reqlen v) ≤ 9 := by
  obtain ⟨hport, h9⟩ := ofNat_le_nine (reqlen_le_nine v)
  exact ⟨BitVec.le_def.mpr (hport.symm ▸ reqlen_pos v), h9⟩

/-! ### The statements -/

/-- Settles O14: REQLEN's answer consumes and appends nothing; the corner values evaluate. -/
theorem reqlenAnswersTheRequiredLength : Obligations.ReqlenAnswersTheRequiredLength := by
  refine ⟨spells_reqlen, fun v s => ?_, by decide⟩
  exact ⟨_, exec_of_answer (i := .reqlen v) rfl, responds_after .., keepsSpaces_after .., drivesNothing_after ..,
    rspLen_reqlen_bounds v.toNat⟩

/-- Settles O15: the closed form by the two cases of the value; the thresholds are those of `reqlen_eq`, inclusive. -/
theorem reqlenClosedFormAndThresholds : Obligations.ReqlenClosedFormAndThresholds := by
  intro v _
  constructor
  · split
    · exact reqlen_eq_nine ‹_›
    · exact reqlen_eq_bitlen_div (Nat.lt_of_not_le ‹_›)
  · simp only [reqlen_eq, Nat.reducePow, Nat.lt_succ_iff]

/-- Settles O16: the length is the least one in the domain of `form`, and both monotonicities are the one in the bit
length. -/
theorem reqlenIsMonotoneFitsAndIsMinimal : Obligations.ReqlenIsMonotoneFitsAndIsMinimal := by
  refine ⟨fun v hv => ?_, fun a b hab _ => reqlen_le_of_bitlen_le (bitlen_mono hab), fun a b _ _ =>
    reqlen_le_of_bitlen_le⟩
  exact ⟨reqlen_pos v, reqlen_le_nine v, lt_of_reqlen_le_eight, formDefined_reqlen hv,
    fun _ => formDefined_eq_false_of_lt_reqlen⟩

end Sys2Proof.Proofs
end

section
/-! SUPPORT. The statements of the encoder chapter (42_encoder.md): what PACK and ENCODE append and answer, ENCODE as
PACK of the required length, the append on the Writer port, and that ENCODE and then a decode give the value back. -/

open Sys2Proof.Machine Sys2Proof.Laws Sys2Proof.Claims

namespace Sys2Proof.Proofs

/-! ### The two words -/

theorem spells_pack : Spells 0x20#8 (fun cw => .pack (nField cw) (vField cw)) := by
  intro cw hop
  simp only [decodeWord, hop]

theorem spells_encode : Spells 0x30#8 (fun cw => .encode (vField cw)) := by
  intro cw hop
  simp only [decodeWord, hop]

/-! ### What PACK and ENCODE do -/

/-- PACK in the domain of `form` (42_encoder.md R131). -/
theorem exec_pack_of_formDefined {n : BitVec 4} {v : Value} (s : State) (h : formDefined n.toNat v.toNat = true) :
    exec (.pack n v) s = .next (after s 0 (form n.toNat v.toNat) ⟨.ok, n, 0⟩) :=
  exec_of_answer (if_pos h)

/-- PACK outside the domain of `form` (42_encoder.md R134). -/
theorem exec_pack_of_not_formDefined {n : BitVec 4} {v : Value} (s : State) (h : ¬formDefined n.toNat v.toNat = true) :
    exec (.pack n v) s = .next (after s 0 [] ⟨.badlen, 0, 0⟩) :=
  exec_of_answer (if_neg h)

/-- ENCODE has one outcome, in every state (42_encoder.md R137). -/
theorem exec_encode (v : Value) (s : State) : exec (.encode v) s =
    .next (after s 0 (form (reqlen v.toNat) v.toNat) ⟨.ok, BitVec.ofNat 4 (reqlen v.toNat), 0⟩) :=
  exec_of_answer rfl

/-- PACK's two tests leave the domain of `form` (42_encoder.md R134). -/
theorem formDefined_of_pack_tests {n : BitVec 4} {v : Value} (hlength : ¬(n = 0 ∨ 10 ≤ n.toNat))
    (hfit : ¬(n.toNat ≤ 8 ∧ 2 ^ (7 * n.toNat) ≤ v.toNat)) : formDefined n.toNat v.toNat = true := by
  obtain ⟨hzero, hlong⟩ := not_or.mp hlength
  have hpos : n.toNat ≠ 0 := fun h => hzero (BitVec.eq_of_toNat_eq h)
  have hv := v.isLt
  rw [formDefined_iff]
  omega

/-- A PACK outside the domain of `form` fails in place. -/
theorem pack_failsInPlace {n : BitVec 4} {v : Value} (s : State)
    (h : n = 0 ∨ 10 ≤ n.toNat ∨ (n.toNat ≤ 8 ∧ 2 ^ (7 * n.toNat) ≤ v.toNat)) : FailsInPlace (.pack n v) s .badlen :=
  ⟨_, exec_pack_of_not_formDefined s (Bool.eq_false_iff.mp (formDefined_eq_false h)), responds_after ..,
    keepsSpaces_after .., drivesNothing_after ..⟩

/-! ### What an append leaves in OUT and on the Writer port -/

/-- The new bytes stand after the old ones, which stay (20_memory.md R50). -/
theorem appends_after (s : State) (k : Nat) (bs : List Byte) (r : Response) : Appends s (after s k bs r) bs := by
  refine ⟨List.length_append, fun i _ => ?_, fun a ha => ?_⟩
  · rw [State.outByte, after_out, List.getElem?_append_right (Nat.le_add_right _ _), Nat.add_sub_cancel_left]
  · rw [State.outByte, State.outByte, after_out, append_getElem?]
    split
    · rfl
    · rw [List.getElem?_eq_none (by omega), List.getElem?_eq_none (by omega)]

/-- The Writer port with a form appended: one append of its length, lane by lane (42_encoder.md R135). -/
theorem wrPorts_form {n : Nat} (v k : Nat) (r : Response) (h1 : 1 ≤ n) (h9 : n ≤ 9) :
    (Ports.drive k (form n v) r).wrValid = true ∧ (Ports.drive k (form n v) r).wrCount = BitVec.ofNat 4 n ∧
      ∀ i, i < 9 → portLane (Ports.drive k (form n v) r).wrBytes i = ((form n v)[i]?).getD 0 := by
  have hlength := form_length v h1
  refine ⟨rfl, ?_, fun i _ => portLane_ofNat (hlength.trans_le h9) i⟩
  rw [Ports.drive_wrCount, hlength]

/-! ### The escape form -/

/-- Only the escape form has the head byte 0xFF (40_wire_format.md R105, R106). -/
theorem headByte_eq_escape_iff {n : Nat} (v : Nat) (h1 : 1 ≤ n) (h9 : n ≤ 9) : headByte n v = 0xFF#8 ↔ n = 9 := by
  constructor
  · intro h
    rw [← hlen_headByte v h1 h9, h]
    rfl
  · rintro rfl
    exact headByte_escape v

/-- The escape length is required exactly from 2^56 on (41_length.md R122). -/
theorem reqlen_eq_nine_iff (v : Nat) : reqlen v = 9 ↔ 2 ^ 56 ≤ v := by
  refine ⟨fun h => Nat.le_of_not_lt fun hlt => ?_, reqlen_eq_nine⟩
  have h8 : reqlen v ≤ 8 := (reqlen_le_iff (by decide) (Nat.le_refl 8)).mpr hlt
  omega

/-! ### The statements -/

/-- Settles O17: PACK's two tests in their order; what passes both is in the domain of `form`. -/
theorem packAppendsItsFormOrAnswersBadlen : Obligations.PackAppendsItsFormOrAnswersBadlen := by
  refine ⟨spells_pack, by decide, fun n v s => ?_⟩
  split
  · rename_i hlength
    exact pack_failsInPlace s (hlength.imp_right .inl)
  · rename_i hlength
    split
    · rename_i hfit
      exact pack_failsInPlace s (.inr (.inr hfit))
    · rename_i hfit
      have hdef := formDefined_of_pack_tests hlength hfit
      exact ⟨_, exec_pack_of_formDefined s hdef, responds_after .., appends_after ..,
        form_length _ (length_bounds_of_formDefined hdef).1, keepsInput_after .., rfl, rfl⟩

/-- Settles O18: every value is in the domain of `form` at its required length; the corner cases evaluate. -/
theorem encodeAppendsTheMinimalForm : Obligations.EncodeAppendsTheMinimalForm := by
  refine ⟨spells_encode, fun v s => ?_, by decide⟩
  exact ⟨_, exec_encode v s, responds_after .., appends_after .., form_length _ (reqlen_pos _),
    formDefined_reqlen v.isLt, keepsInput_after .., rfl, rfl⟩

/-- Settles O19: the required length fits PACK's four bits and is in the domain of `form`, so PACK appends that form. -/
theorem encodeIsPackOfTheRequiredLength : Obligations.EncodeIsPackOfTheRequiredLength := by
  intro v s
  obtain ⟨hn, -⟩ := ofNat_le_nine (reqlen_le_nine v.toNat)
  rw [exec_encode, exec_pack_of_formDefined s (hn.symm ▸ formDefined_reqlen v.isLt), hn]

/-- Settles O39: ENCODE is PACK of the required length, whose form decodes back on both paths at the end of OUT. -/
theorem encodeThenDecodeIsTheIdentity : Obligations.EncodeThenDecodeIsTheIdentity := by
  intro v s
  obtain ⟨hn, -⟩ := ofNat_le_nine (reqlen_le_nine v.toNat)
  obtain ⟨t, hpack, -, hsafe, hfast⟩ :=
    packedFormsDecodeBack (BitVec.ofNat 4 (reqlen v.toNat)) v s hn.ge (hn.trans_le (reqlen_le_nine _))
  have hencode : exec (.encode v) s = .next t := (encodeIsPackOfTheRequiredLength v s).trans hpack
  rw [hn] at hsafe hfast
  refine ⟨t, hencode, ?_, hsafe, hfast⟩
  rw [exec_encode] at hencode
  cases hencode
  exact appends_after ..

/-- Settles O20: the first new byte is the head byte of the form, and no length in the domain of `form` is below the
required one. -/
theorem encodeEscapesExactlyLargeValues : Obligations.EncodeEscapesExactlyLargeValues := by
  intro v s
  refine ⟨_, exec_encode v s, ?_, fun n hdef => ?_⟩
  · rw [State.outByte, after_out, List.getElem?_append_right (Nat.le_refl _), Nat.sub_self, form_getElem?_zero,
      Option.some_inj, headByte_eq_escape_iff _ (reqlen_pos _) (reqlen_le_nine _), reqlen_eq_nine_iff]
  · rw [after_out, List.length_append, Nat.add_sub_cancel_left, form_length _ (reqlen_pos _)]
    exact reqlen_le_of_formDefined hdef

/-- Settles O21: a command that appends a form leaves it on the port, a PACK that answers BADLEN appends no byte. -/
theorem appendsStandOnTheWriterPort : Obligations.AppendsStandOnTheWriterPort := by
  constructor
  · intro n v s t h
    split
    · rename_i hdef
      obtain ⟨h1, h9⟩ := length_bounds_of_formDefined hdef
      rw [exec_pack_of_formDefined s hdef] at h
      cases h
      have hports := wrPorts_form v.toNat 0 ⟨.ok, n, 0⟩ h1 h9
      rwa [BitVec.ofNat_toNat, BitVec.setWidth_eq] at hports
    · rename_i hdef
      rw [exec_pack_of_not_formDefined s hdef] at h
      cases h
      rfl
  · intro v s t h
    rw [exec_encode] at h
    cases h
    exact wrPorts_form _ _ _ (reqlen_pos _) (reqlen_le_nine _)

end Sys2Proof.Proofs
end

section
/-! SUPPORT. The statements of the decoder chapter (43_decoder.md): what a decode command does with the form at the
cursor, complete or not, that both paths have one outcome, and that a stream of forms is decoded to its end. -/

open Sys2Proof.Machine Sys2Proof.Laws Sys2Proof.Claims

namespace Sys2Proof.Proofs

/-! ### The two words -/

theorem spells_decode : Spells 0x50#8 (fun _ => .decode) := by
  intro cw hop
  simp only [decodeWord, hop]

theorem spells_decodeF : Spells 0x58#8 (fun _ => .decodeF) := by
  intro cw hop
  simp only [decodeWord, hop]

/-! ### Incomplete forms -/

/-- `dec` finds no form exactly in the three cases of 43_decoder.md R153. -/
theorem dec_eq_none_iff_incomplete (s : State) : dec s.inp s.rpos = none ↔ Incomplete s := by
  rw [dec_none_iff]
  constructor
  · rintro (hnone | ⟨b0, hb, hpart⟩)
    · exact .inl (Nat.sub_eq_zero_of_le (List.getElem?_eq_none_iff.mp hnone))
    · by_cases hescape : b0 = 0xFF#8
      · subst hescape
        exact .inr (.inl ⟨hb, hpart⟩)
      · exact .inr (.inr ⟨b0, hb, hescape, hlen_eq_clo8_add_one b0 ▸ hpart⟩)
  · rintro (hnone | ⟨hb, hpart⟩ | ⟨b0, hb, -, hpart⟩)
    · exact .inl (List.getElem?_eq_none (Nat.le_of_sub_eq_zero hnone))
    · exact .inr ⟨_, hb, hpart⟩
    · exact .inr ⟨b0, hb, (hlen_eq_clo8_add_one b0).symm ▸ hpart⟩

/-- No head byte asks for more than nine bytes (43_decoder.md R164). -/
theorem not_incomplete_of_nine {s : State} (h : 9 ≤ s.inp.length - s.rpos) : ¬Incomplete s := by
  rintro (hnone | ⟨-, hpart⟩ | ⟨b0, -, -, hpart⟩)
  · omega
  · omega
  · have h9 := (hlen_range b0).2
    rw [hlen_eq_clo8_add_one] at h9
    omega

/-! ### What a decode command does -/

/-- The answer of a decode command says TRUNCATED exactly where `dec` finds no form (43_decoder.md R152, R153). -/
theorem decodeAnswer_truncated_iff {fit : Nat → Bool} {inp : List Byte} {rpos k : Nat} {bs : List Byte} {r : Response}
    (h : decodeAnswer fit inp rpos = some (k, bs, r)) : r.status = .truncated ↔ dec inp rpos = none := by
  obtain ⟨-, -, ⟨hd, -, rfl⟩ | ⟨v, hd, ⟨-, rfl⟩ | ⟨-, rfl⟩⟩⟩ := decodeAnswer_cases h <;> simp [hd]

/-- Every decode command fails in place on an incomplete form (43_decoder.md R154). -/
theorem decodeTruncates_of_isDecode {i : Instr} (hi : IsDecode i) : DecodeTruncates i := by
  intro s hc hpart
  have ha : answer i s.inp s.rpos = some (0, [], ⟨.truncated, 0, 0⟩) := by
    rw [answer_of_decode hi, decodeAnswer, if_pos hc, (dec_eq_none_iff_incomplete s).mpr hpart]
  exact ⟨_, exec_of_answer ha, responds_after .., keepsSpaces_after .., drivesNothing_after ..⟩

/-- A decode command whose check is a comparison with `bound` consumes a complete form and answers its value or RANGE
(43_decoder.md R152, 44_narrowing.md R183). -/
theorem decodeCompletes_of_fit {i : Instr} {bound : Nat} (hi : IsDecode i)
    (hfit : ∀ v < 2 ^ 64, widthFit (decodeWidth i) v = decide (v ≤ bound)) : DecodeCompletes i bound := by
  intro s b0 hb hwhole
  have hc : s.rpos ≤ s.inp.length := Nat.le_of_lt (List.getElem?_eq_some_iff.mp hb).1
  have hd := dec_of_head hb hwhole
  generalize formval b0 ((s.inp.drop (s.rpos + 1)).take (hlen b0 - 1)) = v at hd ⊢
  have ha : answer i s.inp s.rpos = some (hlen b0, [], if v ≤ bound then
      ⟨.ok, BitVec.ofNat 4 (hlen b0), BitVec.ofNat 64 v⟩ else ⟨.range, BitVec.ofNat 4 (hlen b0), 0⟩) := by
    rw [answer_of_decode hi, decodeAnswer, if_pos hc, hd]
    simp only [hfit v (lt_of_formDefined (dec_some hd).1), decide_eq_true_eq]
    split <;> rfl
  exact ⟨_, exec_of_answer ha, responds_after .., rfl, keepsInput_after .., keepsOutput_after .., rfl, rfl⟩

/-- Every 64-bit value passes the check of a decode that has none, as it passes a comparison with the largest one. -/
theorem widthFit_none {v : Nat} (h : v < 2 ^ 64) : widthFit none v = decide (v ≤ 18446744073709551615) :=
  (decide_eq_true (Nat.le_of_lt_succ h)).symm

/-- The outcome of a decode command depends on its width alone, not on its path (43_decoder.md R165, 44_narrowing.md
R197). -/
theorem exec_eq_of_decodeWidth (i j : Instr) (s : State) (hi : IsDecode i) (hj : IsDecode j)
    (hw : decodeWidth i = decodeWidth j) : exec i s = exec j s := by
  rw [exec_eq_answer, exec_eq_answer, answer_of_decode hi, answer_of_decode hj, hw]

/-! ### Streams of forms -/

/-- DECODE on a form that stands at the cursor, whatever follows it (43_decoder.md R155). -/
theorem exec_decode_of_view {s : State} {n v : Nat} {post : List Byte} (hc : CursorInside s)
    (hdef : formDefined n v = true) (hview : view s.inp s.rpos = form n v ++ post) :
    exec .decode s = .next (after s n [] ⟨.ok, BitVec.ofNat 4 n, BitVec.ofNat 64 v⟩) :=
  exec_of_answer (i := .decode) (decodeAnswer_of_dec hc (dec_of_view hdef hview) rfl)

/-- The bytes of a stream of minimal forms (43_decoder.md R160). -/
def streamOf (vs : List Value) : List Byte := vs.flatMap (fun v => form (reqlen v.toNat) v.toNat)

/-- The answers DECODE gives about the forms of a stream. -/
def streamResponses (vs : List Value) : List Response :=
  vs.map (fun v => ⟨.ok, BitVec.ofNat 4 (reqlen v.toNat), v⟩)

/-- A DECODE on a stream answers its first value and leaves the rest of the stream at the cursor. -/
theorem decode_stream_cons {v : Value} {vs : List Value} {s : State} (hc : CursorInside s)
    (hview : view s.inp s.rpos = streamOf (v :: vs)) :
    ∃ t, exec .decode s = .next t ∧ CursorInside t ∧ view t.inp t.rpos = streamOf vs ∧ t.inp = s.inp ∧ t.out = s.out ∧
      t.responses = s.responses ++ [⟨.ok, BitVec.ofNat 4 (reqlen v.toNat), v⟩] := by
  have hhead : view s.inp s.rpos = form (reqlen v.toNat) v.toNat ++ streamOf vs := hview
  have hexec := exec_decode_of_view hc (formDefined_reqlen v.isLt) hhead
  have hlength : (form (reqlen v.toNat) v.toNat).length = reqlen v.toNat := form_length _ (reqlen_pos _)
  have hrest : view s.inp (s.rpos + reqlen v.toNat) = streamOf vs := by
    rw [view] at hhead
    rw [view, ← List.drop_drop, hhead, List.drop_left' hlength]
  have hinside : s.rpos + reqlen v.toNat ≤ s.inp.length := by
    have hbytes := congrArg List.length hhead
    rw [length_view, List.length_append, hlength] at hbytes
    have hpos := reqlen_pos v.toNat
    omega
  rw [BitVec.ofNat_toNat, BitVec.setWidth_eq] at hexec
  exact ⟨_, hexec, hinside, hrest, rfl, List.append_nil _, rfl⟩

/-- A command that answers, and then the rest of the commands from its next state. -/
theorem repeatExec_succ {i : Instr} {s t : State} (h : exec i s = .next t) (k : Nat) :
    repeatExec i (k + 1) s = repeatExec i k t := by
  rw [repeatExec, h]

/-- As many DECODE commands as a stream has values answer them in order and consume the stream (43_decoder.md R160). -/
theorem repeatExec_decode_stream (vs : List Value) : ∀ {s : State}, CursorInside s →
    view s.inp s.rpos = streamOf vs → ∃ t, repeatExec .decode vs.length s = .next t ∧
      t.responses = s.responses ++ streamResponses vs ∧ t.rpos = t.inp.length ∧ t.inp = s.inp ∧ t.out = s.out := by
  induction vs with
  | nil =>
    intro s hc hview
    have hend : s.inp.length ≤ s.rpos := List.drop_eq_nil_iff.mp hview
    exact ⟨s, rfl, (List.append_nil _).symm, Nat.le_antisymm hc hend, rfl, rfl⟩
  | cons v vs ih =>
    intro s hc hview
    obtain ⟨u, hexec, hcu, hrest, hinp, hout, hanswer⟩ := decode_stream_cons hc hview
    obtain ⟨t, hrun, hanswers, hend, hinp', hout'⟩ := ih hcu hrest
    refine ⟨t, (repeatExec_succ hexec _).trans hrun, ?_, hend, hinp'.trans hinp, hout'.trans hout⟩
    rw [hanswers, hanswer, List.append_assoc]
    rfl

/-! ### The statements -/

/-- Settles O42: by induction on the stream; at its end nothing remains, so one more DECODE fails in place. -/
theorem streamsDecodeToTheirValues : Obligations.StreamsDecodeToTheirValues := by
  intro vs s hc hview
  obtain ⟨t, hrun, hanswers, hend, hinp, hout⟩ := repeatExec_decode_stream vs hc hview
  have hnothing : Incomplete t := .inl (Nat.sub_eq_zero_of_le hend.ge)
  exact ⟨t, hrun, hanswers, hend, keepsInput_of_eq hinp, keepsOutput_of_eq hout,
    decodeTruncates_of_isDecode rfl t hend.le hnothing⟩

/-- Settles O24: DECODE checks no width, and every value of a form is a 64-bit value. -/
theorem decodeReadsTheFormAtTheCursor : Obligations.DecodeReadsTheFormAtTheCursor :=
  ⟨spells_decode, decodeCompletes_of_fit rfl fun _ => widthFit_none, decodeTruncates_of_isDecode rfl⟩

/-- Settles O27: with the cursor inside the input there is an answer, and its status is TRUNCATED where `dec` finds no
form. -/
theorem truncatedExactlyWhenIncomplete : Obligations.TruncatedExactlyWhenIncomplete := by
  intro i s hi hc
  obtain ⟨k, bs, r, ha⟩ := exists_decodeAnswer (widthFit (decodeWidth i)) hc
  refine ⟨_, exec_of_answer ((answer_of_decode hi _ _).trans ha), ?_⟩
  rw [← dec_eq_none_iff_incomplete, ← decodeAnswer_truncated_iff ha]
  exact statusCode_injective.eq_iff

/-- Settles O25: DECODE.F, like DECODE, checks no width; with nine bytes the form is complete, and OK is the only other
status it may answer. -/
theorem fastDecodeReadsTheFormAtTheCursor : Obligations.FastDecodeReadsTheFormAtTheCursor := by
  refine ⟨spells_decodeF, decodeCompletes_of_fit rfl fun _ => widthFit_none, decodeTruncates_of_isDecode rfl,
    fun s hc hnine => ?_⟩
  obtain ⟨t, hexec, htrunc⟩ := truncatedExactlyWhenIncomplete .decodeF s rfl hc
  obtain ⟨k, bs, r, ha, rfl⟩ := exec_next_iff.mp hexec
  have hnot : r.status ≠ .truncated := fun h => not_incomplete_of_nine hnine (htrunc.mp (congrArg statusCode h))
  have hok : r.status = .ok := by simpa [allowedStatuses, hnot] using answer_status_allowed ha
  exact ⟨_, hexec, congrArg statusCode hok⟩

/-- Settles O28: the two decodes of each pair have the same width. -/
theorem fastAndSafePathsAgree : Obligations.FastAndSafePathsAgree := fun s =>
  ⟨exec_eq_of_decodeWidth .decodeF .decode s rfl rfl rfl,
    exec_eq_of_decodeWidth .decodeAsU8F .decodeAsU8 s rfl rfl rfl,
    exec_eq_of_decodeWidth .decodeAsU16F .decodeAsU16 s rfl rfl rfl,
    exec_eq_of_decodeWidth .decodeAsU32F .decodeAsU32 s rfl rfl rfl,
    exec_eq_of_decodeWidth .decodeAsU64F .decodeAsU64 s rfl rfl rfl⟩

end Sys2Proof.Proofs
end

section
/-! SUPPORT. The statements of the narrowing chapter (44_narrowing.md): the fit test, what FITCHK and DECODE_AS answer,
DECODE_AS as DECODE and then FITCHK, and that ENCODE and then a DECODE_AS give back the values that fit. -/

open Sys2Proof.Machine Sys2Proof.Laws Sys2Proof.Claims

namespace Sys2Proof.Proofs

/-! ### The words -/

/-- Every word with OP 0x40 to 0x43 is the FITCHK of its width (30_encoding.md R75). -/
theorem spells_fitchk : Spells 0x40#8 (fun cw => .fitchkU8 (vField cw)) ∧
    Spells 0x41#8 (fun cw => .fitchkU16 (vField cw)) ∧ Spells 0x42#8 (fun cw => .fitchkU32 (vField cw)) ∧
    Spells 0x43#8 (fun cw => .fitchkU64 (vField cw)) := by
  refine ⟨?_, ?_, ?_, ?_⟩ <;> intro cw hop <;> simp only [decodeWord, hop]

/-- Every word with OP 0x60 to 0x63 or 0x68 to 0x6B is the DECODE_AS of its width and path (30_encoding.md R75). -/
theorem spells_decodeAs : Spells 0x60#8 (fun _ => .decodeAsU8) ∧ Spells 0x61#8 (fun _ => .decodeAsU16) ∧
    Spells 0x62#8 (fun _ => .decodeAsU32) ∧ Spells 0x63#8 (fun _ => .decodeAsU64) ∧
    Spells 0x68#8 (fun _ => .decodeAsU8F) ∧ Spells 0x69#8 (fun _ => .decodeAsU16F) ∧
    Spells 0x6A#8 (fun _ => .decodeAsU32F) ∧ Spells 0x6B#8 (fun _ => .decodeAsU64F) := by
  refine ⟨?_, ?_, ?_, ?_, ?_, ?_, ?_, ?_⟩ <;> intro cw hop <;> simp only [decodeWord, hop]

/-! ### The fit test -/

/-- The fit test is one comparison (44_narrowing.md R181). -/
theorem fits_iff (w : Width) (v : Nat) : fits w v = true ↔ v ≤ widthMax w := decide_eq_true_iff

/-- A value fits when it is below the first one that needs one more bit (44_narrowing.md R181). -/
theorem fits_iff_lt (w : Width) (v : Nat) : fits w v = true ↔ v < 2 ^ widthBits w := by
  rw [fits_iff, widthMax, Nat.le_sub_one_iff_lt (Nat.two_pow_pos _)]

/-- A value fits when it has no bit at or above the width (44_narrowing.md R181). -/
theorem fits_iff_shiftRight (w : Width) (v : Nat) : fits w v = true ↔ v >>> widthBits w = 0 := by
  rw [fits_iff_lt, Nat.shiftRight_eq_div_pow, Nat.div_eq_zero_iff_lt (Nat.two_pow_pos _)]

/-! ### FITCHK -/

/-- The FITCHK command of a width (44_narrowing.md R185 to R188). -/
def fitchkOf (w : Width) : Value → Instr :=
  match w with
  | .u8 => .fitchkU8
  | .u16 => .fitchkU16
  | .u32 => .fitchkU32
  | .u64 => .fitchkU64

/-- FITCHK answers the fit test and touches nothing, in every state (44_narrowing.md R182). -/
theorem exec_fitchkOf (w : Width) (v : Value) (s : State) :
    exec (fitchkOf w v) s = .next (after s 0 [] (if fits w v.toNat then ⟨.ok, 0, v⟩ else ⟨.range, 0, 0⟩)) := by
  cases w <;> exact exec_of_answer rfl

/-- The status of that answer is the outcome of the fit test. -/
theorem fitchk_status_eq_ok_iff (w : Width) (n : Nat) (v : Value) :
    statusCode (if fits w n then (⟨.ok, 0, v⟩ : Response) else ⟨.range, 0, 0⟩).status = statusCode .ok ↔
      fits w n = true := by
  rw [statusCode_injective.eq_iff]
  split <;> simp [*]

/-- FITCHK compares with the largest value of its width (44_narrowing.md R181, R182). -/
theorem fitCheckAnswers_fitchkOf (w : Width) : FitCheckAnswers (fitchkOf w) (widthMax w) := by
  intro v s
  refine ⟨_, exec_fitchkOf w v s, ?_, keepsSpaces_after .., drivesNothing_after ..⟩
  simp only [fits_iff]
  exact responds_after ..

/-! ### DECODE_AS -/

/-- Only a decode command has a width to check (44_narrowing.md R183). -/
theorem isDecode_of_decodeWidth {i : Instr} {w : Width} (h : decodeWidth i = some w) : IsDecode i := by
  cases i with
  | reqlen _ | pack _ _ | encode _ | fitchkU8 _ | fitchkU16 _ | fitchkU32 _ | fitchkU64 _ => cases h
  | _ => rfl

/-- A DECODE_AS compares the value of a complete form with the largest one of its width (44_narrowing.md R183, R184). -/
theorem decodeCompletes_of_decodeWidth {i : Instr} {w : Width} (h : decodeWidth i = some w) :
    DecodeCompletes i (widthMax w) ∧ DecodeTruncates i :=
  ⟨decodeCompletes_of_fit (isDecode_of_decodeWidth h) fun _ _ => by rw [h]; rfl,
    decodeTruncates_of_isDecode (isDecode_of_decodeWidth h)⟩

/-- A decode command that finds no form answers TRUNCATED, whatever its width (44_narrowing.md R183). -/
theorem answer_of_dec_none {i : Instr} {inp : List Byte} {rpos : Nat} (hi : IsDecode i) (hle : rpos ≤ inp.length)
    (hd : dec inp rpos = none) : answer i inp rpos = some (0, [], ⟨.truncated, 0, 0⟩) := by
  rw [answer_of_decode hi, decodeAnswer, if_pos hle, hd]

/-- A DECODE_AS that finds a form consumes it, and answers its value or RANGE (44_narrowing.md R183, R184). -/
theorem answer_of_dec_some {i : Instr} {w : Width} {inp : List Byte} {rpos n v : Nat} (hi : decodeWidth i = some w)
    (hle : rpos ≤ inp.length) (hd : dec inp rpos = some (n, v)) :
    answer i inp rpos = some (n, [], if fits w v then ⟨.ok, BitVec.ofNat 4 n, BitVec.ofNat 64 v⟩
      else ⟨.range, BitVec.ofNat 4 n, 0⟩) := by
  rw [answer_of_decode (isDecode_of_decodeWidth hi), hi, decodeAnswer, if_pos hle, hd]
  exact (apply_ite (fun r => some (n, [], r)) ..).symm

/-- The value of a form is the number its 64 bits spell (40_wire_format.md R107). -/
theorem toNat_ofNat_of_dec {inp : List Byte} {rpos n v : Nat} (hd : dec inp rpos = some (n, v)) :
    (BitVec.ofNat 64 v).toNat = v :=
  (BitVec.toNat_ofNat ..).trans (Nat.mod_eq_of_lt (lt_of_formDefined (dec_some hd).1))

/-- A decode command asks its check about 64-bit values only. -/
theorem decodeAnswer_congr {fit fit' : Nat → Bool} (h : ∀ v < 2 ^ 64, fit v = fit' v) (inp : List Byte) (rpos : Nat) :
    decodeAnswer fit inp rpos = decodeAnswer fit' inp rpos := by
  unfold decodeAnswer
  cases hd : dec inp rpos with
  | none => rfl
  | some nv => simp only [h nv.2 (lt_of_formDefined (dec_some hd).1)]

/-- A DECODE_AS at 64 bits is DECODE, since every value of a form fits (44_narrowing.md R192, R196). -/
theorem exec_eq_decode_of_u64 {i : Instr} (hi : decodeWidth i = some .u64) (s : State) :
    exec i s = exec .decode s := by
  rw [exec_eq_answer, exec_eq_answer, answer_of_decode (isDecode_of_decodeWidth hi), hi]
  exact congrArg (answered s) (decodeAnswer_congr (fun _ => fits_u64) _ _)

/-- A DECODE_AS of a form at the end of OUT, after the hand-over, consumes it and answers its value or RANGE. -/
theorem decodesAtEnd_of_decodeWidth {i : Instr} {w : Width} {t : State} {pre : List Byte} {n v : Nat}
    (hi : decodeWidth i = some w) (hdef : formDefined n v = true) (hout : t.out = pre ++ form n v) :
    DecodesAtEnd i t pre.length n (if v ≤ widthMax w then ⟨.ok, BitVec.ofNat 4 n, BitVec.ofNat 64 v⟩
      else ⟨.range, BitVec.ofNat 4 n, 0⟩) := by
  have hlength : t.out.length = pre.length + n := by
    rw [hout, List.length_append, form_length v (length_bounds_of_formDefined hdef).1]
  have ha := answer_of_dec_some hi (hlength ▸ Nat.le_add_right _ _) (dec_handedOver hdef hout)
  simp only [fits_iff] at ha
  exact ⟨_, exec_of_answer ha, responds_after .., rfl, hlength.symm⟩

/-- Every row of the table is a DECODE_AS, the FITCHK of its width and the largest value of its width. -/
theorem narrowings_cases {p : Instr × (Value → Instr) × Nat} (h : p ∈ narrowings) :
    ∃ w, decodeWidth p.1 = some w ∧ p.2.1 = fitchkOf w ∧ p.2.2 = widthMax w := by
  fin_cases h <;> exact ⟨_, rfl, rfl, rfl⟩

/-! ### The statements -/

/-- Settles O41: ENCODE leaves the form of the required length at the end of OUT, where a DECODE_AS finds it. -/
theorem encodeThenNarrowDecode : Obligations.EncodeThenNarrowDecode := by
  intro v s p hp
  obtain ⟨w, hi, -, hbound⟩ := narrowings_cases hp
  refine ⟨_, exec_encode v s, ?_⟩
  have hend := decodesAtEnd_of_decodeWidth hi (formDefined_reqlen v.isLt)
    (after_out s 0 (form (reqlen v.toNat) v.toNat) ⟨.ok, BitVec.ofNat 4 (reqlen v.toNat), 0⟩)
  rwa [BitVec.ofNat_toNat, BitVec.setWidth_eq, ← hbound] at hend

/-- Settles O22: FITCHK answers the fit test, which is the comparison with the largest value of the width. -/
theorem fitchkComparesWithTheWidth : Obligations.FitchkComparesWithTheWidth := by
  obtain ⟨h8, h16, h32, h64⟩ := spells_fitchk
  exact ⟨h8, h16, h32, h64, fitCheckAnswers_fitchkOf .u8, fitCheckAnswers_fitchkOf .u16, fitCheckAnswers_fitchkOf .u32,
    fitCheckAnswers_fitchkOf .u64⟩

/-- Settles O23: the largest values evaluate; the two forms of the test are those of the lemmas above. -/
theorem fitsMeansUpperBitsZero : Obligations.FitsMeansUpperBitsZero :=
  ⟨rfl, rfl, rfl, rfl, fun w v hv => ⟨fits_iff w v, fits_iff_shiftRight w v, fits_u64 hv⟩⟩

/-- Settles O26: each DECODE_AS compares with the largest value of its width. -/
theorem narrowDecodesConsumeThenCheck : Obligations.NarrowDecodesConsumeThenCheck :=
  ⟨spells_decodeAs, decodeCompletes_of_decodeWidth (w := .u8) rfl, decodeCompletes_of_decodeWidth (w := .u16) rfl,
    decodeCompletes_of_decodeWidth (w := .u32) rfl, decodeCompletes_of_decodeWidth (w := .u64) rfl,
    decodeCompletes_of_decodeWidth (w := .u8) rfl, decodeCompletes_of_decodeWidth (w := .u16) rfl,
    decodeCompletes_of_decodeWidth (w := .u32) rfl, decodeCompletes_of_decodeWidth (w := .u64) rfl⟩

/-- Settles O29: both have the width of 64 bits, which every value of a form fits. -/
theorem narrowDecodeTo64BitsIsDecode : Obligations.NarrowDecodeTo64BitsIsDecode := fun s =>
  ⟨exec_eq_decode_of_u64 (i := .decodeAsU64) rfl s, exec_eq_decode_of_u64 (i := .decodeAsU64F) rfl s⟩

/-- Settles O30: without a form both commands answer TRUNCATED; with one, DECODE answers OK with a value, and the check
of DECODE_AS on that value is the one FITCHK makes. -/
theorem narrowDecodeIsDecodeThenFitchk : Obligations.NarrowDecodeIsDecodeThenFitchk := by
  intro s p hc hp
  obtain ⟨w, hi, hfitchk, -⟩ := narrowings_cases hp
  rw [hfitchk]
  cases hd : dec s.inp s.rpos with
  | none =>
    have htrunc {j : Instr} (hj : IsDecode j) := exec_of_answer (answer_of_dec_none hj hc hd)
    exact ⟨_, htrunc (j := .decode) rfl, fun _ => ⟨htrunc (isDecode_of_decodeWidth hi), keepsSpaces_after ..⟩,
      fun h => absurd (statusCode_injective (a₁ := .truncated) h) Status.noConfusion⟩
  | some nv =>
    obtain ⟨n, v⟩ := nv
    refine ⟨_, exec_of_answer (i := .decode) (decodeAnswer_of_dec hc hd rfl),
      fun h => absurd (statusCode_injective (a₁ := .ok) h) Status.noConfusion, fun _ => ⟨_, _, exec_fitchkOf w _ s,
        exec_of_answer (answer_of_dec_some hi hc hd), rfl, rfl, rfl, ?_⟩⟩
    simp only [after_ports, Ports.drive_rspStatus, Ports.drive_rspLen, Ports.drive_rspValue, toNat_ofNat_of_dec hd,
      fitchk_status_eq_ok_iff]
    exact responds_after ..

/-- Settles O31: a DECODE_AS answers OK only about a value that fits, which has no bit at or above the width. -/
theorem narrowResultsLeaveUpperBitsZero : Obligations.NarrowResultsLeaveUpperBitsZero := by
  intro i w s t hi h hok
  obtain ⟨k, bs, r, ha, rfl⟩ := exec_next_iff.mp h
  have hstatus : r.status = .ok := statusCode_injective hok
  rw [answer_of_decode (isDecode_of_decodeWidth hi), hi] at ha
  obtain ⟨-, -, ⟨-, -, rfl⟩ | ⟨v, hd, ⟨hfit, rfl⟩ | ⟨-, rfl⟩⟩⟩ := decodeAnswer_cases ha
  · cases hstatus
  · rw [after_ports, Ports.drive_rspValue, toNat_ofNat_of_dec hd]
    exact ⟨(fits_iff_shiftRight w v).mp hfit, Nat.mod_eq_of_lt ((fits_iff_lt w v).mp hfit)⟩
  · cases hstatus

end Sys2Proof.Proofs
end

section
/-! SUPPORT. The statement of the reset chapter (70_reset_and_hazards.md): the three ways a reset takes effect, and that
each leaves the unit idle and abandons a command in flight whole. -/

open Sys2Proof.Machine Sys2Proof.Laws Sys2Proof.Claims

namespace Sys2Proof.Proofs

/-! ### The three ways a reset takes effect -/

/-- Between commands the reset is taken off the schedule (10_state.md R32). -/
theorem step_of_reset {s : State} {rest : List Event} (hf : s.inFlight = none) (hs : s.schedule = .reset :: rest) :
    step s = .next (s.betweenCommands rest).applyReset := by
  rw [step_of_idle hf, hostStep, hs]

/-- A command cut by reset is accepted but never run (70_reset_and_hazards.md R241). -/
theorem step_of_commandCut {s : State} {cw : CmdWord} {rest : List Event} (hf : s.inFlight = none)
    (hs : s.schedule = .commandCut cw :: rest) : step s = .next (s.accept cw rest).applyReset := by
  rw [step_of_idle hf, hostStep, hs]

/-- A reset that comes next while a command waits ends the wait (70_reset_and_hazards.md R241). -/
theorem step_of_reset_waiting {s : State} {rest : List Event} (hf : s.inFlight.isSome = true) (hw : s.wrReady = false)
    (hs : s.schedule = .reset :: rest) : step s = .next { s with schedule := rest }.applyReset := by
  obtain ⟨cw, hcw⟩ := Option.isSome_iff_exists.mp hf
  rw [step_of_inFlight hcw, if_neg (Bool.eq_false_iff.mp hw)]
  exact waitStep_of_reset (pre := []) (List.forall_mem_nil _) hs

/-! ### What a reset leaves -/

/-- The ports after reset have the values of 10_state.md R32. -/
theorem idlePorts_applyReset (u : State) : IdlePorts u.applyReset :=
  ⟨rfl, rfl, rfl, rfl, rfl, rfl, rfl, rfl, rfl⟩

/-! ### The statement -/

/-- Settles O10: in each of the three ways the state reset takes effect in has the spaces, the responses and `wr_ready`
it had before the step, for the cut or waiting command has not run. -/
theorem resetAbandonsTheCommandWhole : Obligations.ResetAbandonsTheCommandWhole := by
  rintro s rest (⟨hf, hs | ⟨cw, hs⟩⟩ | ⟨hf, hw, hs⟩)
  · exact ⟨_, step_of_reset hf hs, idlePorts_applyReset _, rfl, keepsSpaces_of_eq rfl rfl rfl, rfl, rfl, rfl⟩
  · exact ⟨_, step_of_commandCut hf hs, idlePorts_applyReset _, rfl, keepsSpaces_of_eq rfl rfl rfl, rfl, rfl, rfl⟩
  · exact ⟨_, step_of_reset_waiting hf hw hs, idlePorts_applyReset _, rfl, keepsSpaces_of_eq rfl rfl rfl, rfl, rfl, rfl⟩

end Sys2Proof.Proofs
end
